-- ==== Sys2Proof/Word.lean ====
section
/-! DEFINITION. The word types of the block: 8-bit bytes and byte strings (00_scope.md R11, R12; 20_memory.md R38). -/

namespace Sys2Proof

/-- An 8-bit unsigned value: an OutputSample, a colour channel or one byte of a space (R12). -/
abbrev Byte := BitVec 8

/-- A 2-bit colour level (30_encoding.md R50). -/
abbrev Level := BitVec 2

/-- A byte string: a FrameCommit payload, a THUMBNAIL source or a thumbnail (R32, R56, R57). -/
abbrev Bytes := List Byte

end Sys2Proof
end

