-- ==== Sys2Proof/Config.lean ====
section
/-! DEFINITION. The parameters of the block: the TimingConfig (00_scope.md R6), and the two parameters the model
fixes at reset, FB_CAPACITY (R10) and the TimingConfig of the block that stands at reset (log entry 1). -/

namespace Sys2Proof

/-- The TimingConfig (R6): three naturals for each axis, the horizontal ones in col units and the vertical ones in
lines (R58, 90_conflicts.md C1). The window bounds and framebuffer dimensions that R16 derives from them are computed
from these six (Machine/Operands.lean) and stored nowhere else. -/
structure Cfg where
  /-- `h.backPorch` -/
  hbp : Nat
  /-- `h.pulse` -/
  hp : Nat
  /-- `h.visible` -/
  hv : Nat
  /-- `v.backPorch` -/
  vbp : Nat
  /-- `v.pulse` -/
  vp : Nat
  /-- `v.visible` -/
  vv : Nat
deriving DecidableEq, Repr

/-- The TimingConfig of the block at reset. DESIGN CHOICE (log entry 1, unsafe): the spec gives CONSTRUCT's operand no
reset value; this is the configuration of R103's worked example. -/
def Config.resetCfg : Cfg := { hbp := 2, hp := 2, hv := 4, vbp := 1, vp := 1, vv := 2 }

/-- FB_CAPACITY at reset, `none` for ∞: "The value ∞ means unbounded and is the model's default" (R10, log entry 5). -/
def Config.resetCapacity : Option Nat := none

end Sys2Proof
end

