-- ==== Sys2Proof/Syntax.lean ====
section
/-! DEFINITION. The three operations of the block (30_encoding.md R56, spec/opcode_table.json). -/

namespace Sys2Proof

/-- An OutputSample by its fields, `VHBBGGRR` (30_encoding.md R50, R51). -/
structure Sample where
  /-- bit 7, the vertical-sync level -/
  v : Bool
  /-- bit 6, the horizontal-sync level -/
  h : Bool
  /-- bits 5..4, the blue level -/
  b : Level
  /-- bits 3..2, the green level -/
  g : Level
  /-- bits 1..0, the red level -/
  r : Level
deriving DecidableEq, Repr

/-- The operations of R56, one constructor for each row of spec/opcode_table.json. -/
inductive Instr where
  /-- `ADVANCE(s)` (40_advance.md R61) -/
  | advance (o : Sample)
  /-- `CONSTRUCT(hbp, hp, hv, vbp, vp, vv)` (70_reset_and_hazards.md R103) -/
  | construct (c : Cfg)
  /-- `THUMBNAIL(src, sw, sh)` (45_thumbnail.md R80) -/
  | thumbnail (src : Bytes) (sw sh : Nat)
deriving DecidableEq, Repr

end Sys2Proof
end

