-- ==== Sys2Proof/WellFormed.lean ====
section
/-! DEFINITION. Which operands the spec accepts. It restates R88 and R81 on their own; the checks that CONSTRUCT and
THUMBNAIL make while they run are Machine/Operands.lean's, and the obligations say that the two agree. An ill-formed
operation still runs: its result is the error the spec names. -/

namespace Sys2Proof

/-- A TimingConfig that CONSTRUCT accepts in a realisation of the given capacity, `none` for unbounded
(60_exceptions.md R88 clauses 1, 2 and 4). Clause 3, a negative field, cannot be said of naturals; the boundary makes
it (`decodeRequest`). -/
def Cfg.wf (capacity : Option Nat) (c : Cfg) : Bool :=
  c.hv != 0 && c.vv != 0 && c.hv % 4 == 0 &&
    (match capacity with
     | none => true
     | some n => decide (c.hv * c.vv * 4 ≤ n))

/-- Operands that THUMBNAIL accepts (45_thumbnail.md R81). -/
def thumbnailWf (src : Bytes) (sw sh : Nat) : Bool :=
  decide (640 ≤ sw) && decide (480 ≤ sh) && src.length == sw * sh * 4

/-- An operation whose operands the spec accepts. Every OutputSample is one (30_encoding.md R52). -/
def Instr.wf (capacity : Option Nat) : Instr → Bool
  | .advance _ => true
  | .construct c => c.wf capacity
  | .thumbnail src sw sh => thumbnailWf src sw sh

end Sys2Proof
end

