-- ==== Sys2Proof/Decode.lean ====
section
/-! DEFINITION. Decoding: an OutputSample byte to an ADVANCE (30_encoding.md §1), a host request to an operation (§3),
and the encoders the other way. Only ADVANCE has a bit encoding; CONSTRUCT and THUMBNAIL "carry structured operands, not
bit patterns" (log entry 20). -/

namespace Sys2Proof

/-- The fields of a sample byte as unsigned bit slices (30_encoding.md R51). -/
def decodeSample (s : Byte) : Sample :=
  { v := s.getLsbD 7
    h := s.getLsbD 6
    b := s.extractLsb' 4 2
    g := s.extractLsb' 2 2
    r := s.extractLsb' 0 2 }

/-- Every byte decodes to ADVANCE (30_encoding.md R52, R59). -/
def decode (s : Byte) : Instr := .advance (decodeSample s)

/-- Why bytes hold no instruction. -/
inductive SampleError where
  /-- there is no byte: the OutputSample is exactly 8 bits (30_encoding.md R50) -/
  | noSample
deriving DecidableEq, Repr

/-- One instruction from the front of a byte string and the rest of it: one byte a tick (30_encoding.md R52, R60). -/
def decodeBytes : Bytes → Except SampleError (Instr × Bytes)
  | [] => .error .noSample
  | s :: rest => .ok (decode s, rest)

/-- The byte `S(V,H,b,g,r) = V<<7 | H<<6 | b<<4 | g<<2 | r` of 30_encoding.md R60. -/
def Sample.byte (o : Sample) : Byte :=
  (BitVec.ofBool o.v).setWidth 8 <<< 7 ||| (BitVec.ofBool o.h).setWidth 8 <<< 6 |||
    o.b.setWidth 8 <<< 4 ||| o.g.setWidth 8 <<< 2 ||| o.r.setWidth 8

/-- The word of an instruction; CONSTRUCT and THUMBNAIL have none (30_encoding.md R56, spec/opcode_table.json). -/
def encode : Instr → Option Byte
  | .advance o => some o.byte
  | .construct _ => none
  | .thumbnail _ _ _ => none

/-- One operation as the host issues it at the block's boundary (30_encoding.md R56, 60_exceptions.md R98). DESIGN
CHOICE (log entry 3): a boundary that can carry a negative TimingConfig field, so that R88's clause 3 can be said. -/
inductive Request where
  /-- the driver's output-port byte of one emulated cycle -/
  | sample (s : Byte)
  /-- the embedding emulator's TimingConfig, as integers -/
  | construct (hbp hp hv vbp vp vv : Int)
  /-- the thumbnail caller's source and its dimensions -/
  | thumbnail (src : Bytes) (sw sh : Nat)
deriving DecidableEq, Repr

/-- Why a request is refused at the boundary. -/
inductive RequestError where
  /-- a TimingConfig field is negative (60_exceptions.md R88 clause 3, D7); the block answers ConfigError -/
  | negativeField
deriving DecidableEq, Repr

/-- A request to the operation it issues: "This is refused at the boundary, and the model's naturals cannot express
it" (60_exceptions.md R88 clause 3). -/
def decodeRequest : Request → Except RequestError Instr
  | .sample s => .ok (decode s)
  | .construct hbp hp hv vbp vp vv =>
    if hbp < 0 ∨ hp < 0 ∨ hv < 0 ∨ vbp < 0 ∨ vp < 0 ∨ vv < 0 then .error .negativeField
    else .ok (.construct
      { hbp := hbp.toNat, hp := hp.toNat, hv := hv.toNat, vbp := vbp.toNat, vp := vp.toNat, vv := vv.toNat })
  | .thumbnail src sw sh => .ok (.thumbnail src sw sh)

/-- The request that issues an operation. -/
def encodeRequest : Instr → Request
  | .advance o => .sample o.byte
  | .construct c => .construct c.hbp c.hp c.hv c.vbp c.vp c.vv
  | .thumbnail src sw sh => .thumbnail src sw sh

/-- A stream of ADVANCEs, "a list of hex bytes in tick order" (30_encoding.md R60). -/
def sampleStream (bytes : Bytes) : List Request := bytes.map .sample

/-- `IDLE(c) = 0xC0 | c`: a 6-bit colour with both sync lines high (30_encoding.md R60). -/
def idleByte (c : BitVec 6) : Byte := 0xC0 ||| c.setWidth 8

/-- `VS`: vertical sync low (30_encoding.md R60). -/
def vsByte : Byte := 0x40

/-- `HS`: horizontal sync low (30_encoding.md R60). -/
def hsByte : Byte := 0x80

/-- The host's reading of a table word: the instruction in the one byte that an ADVANCE row has. No other row has bits,
and no instruction is longer than 8 (30_encoding.md R52). -/
def decodeTableWord (nbits w : Nat) : Option Instr :=
  if 0 < nbits ∧ nbits ≤ 8 ∧ w < 256 then
    match decodeBytes [BitVec.ofNat 8 w] with
    | .ok (i, []) => some i
    | _ => none
  else none

end Sys2Proof
end

