-- ==== Sys2Proof/Machine/State.lean ====
section
/-! DEFINITION. The state: the block's tuple of 10_state.md R15, whether a block exists, the realisation's capacity,
and the model's own two fields, the operations the host has issued and the results it has been given. -/

namespace Sys2Proof.Machine

/-- A byte memory as cells in one canonical form (`Memory.wf`): offsets strictly rising, no cell equal to what an
unlisted offset reads as. -/
abbrev Memory := List Host.Cell

/-- What an operation reports (30_encoding.md R56, R57; 60_exceptions.md R87). -/
inductive Result where
  /-- CONSTRUCT's `ok` -/
  | constructed
  /-- CONSTRUCT's ConfigError, without payload (R57, R89) -/
  | configError
  /-- ADVANCE's `none`, or `some FrameCommit(payload)` (R56, R67) -/
  | tick (commit : Option Bytes)
  /-- THUMBNAIL's 160 × 120 RGBA image (R83) -/
  | thumbnail (image : Bytes)
  /-- THUMBNAIL's DimensionError, without payload (R57, R91) -/
  | dimensionError
deriving DecidableEq, Repr

/-- The persistent state of a block, "exactly the tuple `(cfg, row, col, cursor, prev, FB)`" (10_state.md R15). The
counters are unbounded (R30, D9, log entry 9). -/
structure Block where
  /-- the configuration registers, read-only after CONSTRUCT (R16) -/
  cfg : Cfg
  /-- the line index since the last vertical-sync edge, −1 before its first line (R17) -/
  row : Int
  /-- col units since the last horizontal-sync edge (R18) -/
  col : Nat
  /-- the offset in FB where the next pixel group is painted (R19) -/
  cursor : Nat
  /-- the sample of the tick before (R20) -/
  prev : Byte
  /-- FB, offsets 0 .. FB_SIZE − 1 (R21) -/
  fb : Memory
deriving DecidableEq, Repr

/-- Why the machine stops with a fault. -/
inductive Fault where
  /-- Raised by ADVANCE when the paint condition holds and `cursor + 16 > FB_SIZE`, before any byte is written
  (60_exceptions.md R92, D14, log entry 15). Safe: no state that CONSTRUCT and ADVANCEs reach raises it (R41). -/
  | paintOutOfBounds (cursor : Nat)
deriving DecidableEq, Repr

/-- Why the machine gives an operation no meaning. -/
inductive Refusal where
  /-- Raised by `exec`'s arm of an operation that has no meaning yet; no arm of this model raises it. Safe. -/
  | notModelled (mnemonic : String)
  /-- Raised by ADVANCE and THUMBNAIL while no block exists: "No ADVANCE or THUMBNAIL exists before a successful
  CONSTRUCT" (70_reset_and_hazards.md R107, log entry 6). Safe. -/
  | noBlock (mnemonic : String)
deriving DecidableEq, Repr

/-- The state of the machine. -/
structure State where
  /-- FB_CAPACITY in bytes, `none` for ∞: fixed for a realisation, written by no operation (00_scope.md R10, D8) -/
  fbCapacity : Option Nat
  /-- the block, `none` before a first successful CONSTRUCT (60_exceptions.md R89, 70_reset_and_hazards.md R107) -/
  block : Option Block
  /-- the model's own: the operations issued and not yet run, oldest first (20_memory.md R43, log entry 3) -/
  pending : List Request
  /-- the model's own: the results given so far, newest first (30_encoding.md R56, log entry 4) -/
  delivered : List Result
deriving DecidableEq, Repr

/-- Right after reset: the state CONSTRUCT leaves, "the only reset state" (70_reset_and_hazards.md R103, R104), for the
TimingConfig of log entry 1. Every FB byte holds its reset value, so nothing is listed (10_state.md R21). -/
def State.reset : State :=
  { fbCapacity := Config.resetCapacity
    block := some { cfg := Config.resetCfg, row := -1, col := 0, cursor := 0, prev := 0, fb := [] }
    pending := []
    delivered := [] }

end Sys2Proof.Machine
end

