-- ==== Sys2Proof/Machine/Operands.lean ====
section
/-! DEFINITION. The constants of 00_scope.md R9, the values derived from a TimingConfig (R7, R8), the colour operand of
a sample (30_encoding.md §2), and the operand checks of CONSTRUCT and THUMBNAIL (60_exceptions.md R88,
45_thumbnail.md R81). -/

namespace Sys2Proof

/-- COL_STRIDE: col units a tick consumes (00_scope.md R9). -/
def colStride : Nat := 4
/-- PIXELS_PER_TICK (R9). -/
def pixelsPerTick : Nat := 4
/-- BYTES_PER_PIXEL (R9). -/
def bytesPerPixel : Nat := 4
/-- CURSOR_STRIDE: bytes one paint advances the cursor by (R9). -/
def cursorStride : Nat := 16
/-- LEVEL_SCALE (R9). -/
def levelScale : Byte := 85
/-- ALPHA (R9). -/
def alpha : Byte := 255
/-- THUMB_W (R9). -/
def thumbW : Nat := 160
/-- THUMB_H (R9). -/
def thumbH : Nat := 120
/-- THUMB_FACTOR (R9). -/
def thumbFactor : Nat := 4
/-- SRC_MIN_W (R9). -/
def srcMinW : Nat := 640
/-- SRC_MIN_H (R9). -/
def srcMinH : Nat := 480

/-- `minCol = h.backPorch + h.pulse` (00_scope.md R7). -/
def Cfg.minCol (c : Cfg) : Nat := c.hbp + c.hp
/-- `maxCol = minCol + h.visible` (R7). -/
def Cfg.maxCol (c : Cfg) : Nat := c.minCol + c.hv
/-- `minRow = v.backPorch + v.pulse` (R7). -/
def Cfg.minRow (c : Cfg) : Nat := c.vbp + c.vp
/-- `maxRow = minRow + v.visible` (R7). -/
def Cfg.maxRow (c : Cfg) : Nat := c.minRow + c.vv
/-- `W = h.visible` pixels per row (R8). -/
def Cfg.width (c : Cfg) : Nat := c.hv
/-- `H = v.visible` rows (R8). -/
def Cfg.height (c : Cfg) : Nat := c.vv
/-- `FB_SIZE = W × H × 4` bytes (R8). -/
def Cfg.fbSize (c : Cfg) : Nat := c.width * c.height * bytesPerPixel
/-- `c0 = 4·ceil(minCol / 4)`, the col value of a line's first painted group (20_memory.md R35, 40_advance.md R78). -/
def Cfg.firstCol (c : Cfg) : Nat := colStride * ((c.minCol + (colStride - 1)) / colStride)

/-- A 2-bit level as an 8-bit channel: zero-extended and multiplied by 85 (30_encoding.md R54). -/
def channel (l : Level) : Byte := levelScale * l.setWidth 8

/-- The pixel a sample paints, in the order R, G, B, A, with A = 255 (30_encoding.md R54, R55; 20_memory.md R34). -/
def Sample.pixel (o : Sample) : Bytes := [channel o.r, channel o.g, channel o.b, alpha]

namespace Machine

/-- Whether a framebuffer of `size` bytes fits the capacity, `none` for ∞ (00_scope.md R10). -/
def fitsCapacity (capacity : Option Nat) (size : Nat) : Bool :=
  match capacity with
  | none => true
  | some n => decide (size ≤ n)

/-- CONSTRUCT's three checks in the order of R103's pseudocode (60_exceptions.md R88 clauses 1, 2 and 4); true where
none of them raises ConfigError. -/
def configAccepted (capacity : Option Nat) (c : Cfg) : Bool :=
  if c.hv = 0 ∨ c.vv = 0 then false
  else if c.hv % pixelsPerTick ≠ 0 then false
  else fitsCapacity capacity c.fbSize

/-- THUMBNAIL's check (45_thumbnail.md R80, R81); true where it does not raise DimensionError. -/
def dimensionsAccepted (src : Bytes) (sw sh : Nat) : Bool :=
  if sw < srcMinW ∨ sh < srcMinH ∨ src.length ≠ sw * sh * bytesPerPixel then false else true

/-- The byte offset of pixel (x, y) in a row-major RGBA image of the given stride in pixels (20_memory.md R36 for THUMB
with stride 160, R37 and D10 for SRC with stride `sourceWidth`). -/
def pixelOffset (stride x y : Nat) : Nat := bytesPerPixel * (stride * y + x)

end Machine

end Sys2Proof
end

