-- ==== Sys2Proof/Machine/Flags.lean ====
section
/-! DEFINITION. The two transients of an ADVANCE, `fall` and `visible` (10_state.md R24, R25). The block stores no flag
(R27). -/

namespace Sys2Proof.Machine

/-- `fall = prev & ~s` (40_advance.md R63). -/
def fall (prev s : Byte) : Byte := prev &&& ~~~s

/-- The vertical-sync falling edge, bit 7 of `fall` (10_state.md R24). -/
def vsFall (f : Byte) : Bool := f.getLsbD 7

/-- The horizontal-sync falling edge, bit 6 of `fall` (10_state.md R24). -/
def hsFall (f : Byte) : Bool := f.getLsbD 6

/-- `visible = (minRow <= row < maxRow) and (minCol <= col < maxCol)`, on integers (10_state.md R25). -/
def visible (c : Cfg) (row : Int) (col : Nat) : Bool :=
  decide ((c.minRow : Int) ≤ row ∧ row < c.maxRow) && decide (c.minCol ≤ col ∧ col < c.maxCol)

end Sys2Proof.Machine
end

