-- ==== Sys2Proof/Machine/Ops.lean ====
section
/-! DEFINITION. The shared operations: one byte of FB read and written, byte strings read and written, the steps of the
coordinate state machine and the painter, a new block, and delivering a result, which is also how an error is raised. -/

namespace Sys2Proof.Machine

/-! ### FB (20_memory.md §1 to §3) -/

/-- What an unlisted offset of FB reads as: the CONSTRUCT image, "`0xFF` when `k mod 4 = 3` and `0x00` otherwise"
(10_state.md R21). -/
def unlistedByte (k : Nat) : Byte := if k % 4 = 3 then 0xFF else 0x00

/-- The canonical form: offsets strictly rising and no cell equal to what an unlisted offset reads as. -/
def Memory.wf : Memory → Bool
  | [] => true
  | (a, v) :: m => v != unlistedByte a && m.all (fun c => decide (a < c.1)) && Memory.wf m

/-- The byte at offset `k`. -/
def Memory.read : Memory → Nat → Byte
  | [], k => unlistedByte k
  | (a, v) :: m, k => if a = k then v else Memory.read m k

/-- The memory with `v` at offset `k`, in canonical form. -/
def Memory.write : Memory → Nat → Byte → Memory
  | [], k, v => if v = unlistedByte k then [] else [(k, v)]
  | (a, w) :: m, k, v =>
    if k < a then (if v = unlistedByte k then (a, w) :: m else (k, v) :: (a, w) :: m)
    else if k = a then (if v = unlistedByte k then m else (k, v) :: m)
    else (a, w) :: Memory.write m k v

/-- `MemWrite(FB, off, n, [b0, …])`: byte `bk` at offset `off + k` (00_scope.md R13). -/
def Memory.writeBytes : Memory → Nat → Bytes → Memory
  | m, _, [] => m
  | m, off, b :: bs => Memory.writeBytes (m.write off b) (off + 1) bs

/-- The four identical pixel writes of one paint, at `cursor`, `cursor+4`, `cursor+8` and `cursor+12`
(40_advance.md R75). -/
def paintGroup (m : Memory) (cursor : Nat) (pixel : Bytes) : Memory :=
  (List.range pixelsPerTick).foldl (fun m i => m.writeBytes (cursor + bytesPerPixel * i) pixel) m

/-- `copy(FB)`: the value of all FB_SIZE bytes, in order of offset (00_scope.md R13, 20_memory.md R44). -/
def copyFb (b : Block) : Bytes := (List.range b.cfg.fbSize).map b.fb.read

/-- `MemRead(SRC, off, n)` (00_scope.md R13). -/
def readSrc (src : Bytes) (off n : Nat) : Bytes := (src.drop off).take n

/-! ### The steps of one ADVANCE (40_advance.md R61) -/

/-- The FrameCommit of a vertical-sync falling edge: a copy of FB at the start of the tick (R67, D3, D4). -/
def frameCommit (f : Byte) (b : Block) : Option Bytes := if vsFall f then some (copyFb b) else none

/-- The vertical-sync branch: `row <- −1`, `cursor <- 0` (R68). -/
def verticalReset (f : Byte) (b : Block) : Block :=
  if vsFall f then { b with row := -1, cursor := 0 } else b

/-- The horizontal-sync branch: `col <- 0`, then `row <- row + 1` (R69). -/
def horizontalReset (f : Byte) (b : Block) : Block :=
  if hsFall f then { b with col := 0, row := b.row + 1 } else b

/-- `prev <- s` (R64). -/
def storeSample (s : Byte) (b : Block) : Block := { b with prev := s }

/-- The block as the paint step sees it: edges found in `prev` as it was, position updated, sample stored (R62). -/
def afterSync (o : Sample) (b : Block) : Block :=
  let f := fall b.prev o.byte
  storeSample o.byte (horizontalReset f (verticalReset f b))

/-- The paint step with its bounds check (R73 to R76; 60_exceptions.md R92, D14). -/
def paint (o : Sample) (b : Block) : Except Fault Block :=
  if visible b.cfg b.row b.col then
    if b.cursor + cursorStride > b.cfg.fbSize then .error (.paintOutOfBounds b.cursor)
    else .ok { b with fb := paintGroup b.fb b.cursor o.pixel, cursor := b.cursor + cursorStride }
  else .ok b

/-- `col <- col + 4` (R71). -/
def advanceCol (b : Block) : Block := { b with col := b.col + colStride }

/-- The whole of ADVANCE on a block: its next state and its optional FrameCommit (R61). -/
def advanceBlock (o : Sample) (b : Block) : Except Fault (Block × Option Bytes) :=
  match paint o (afterSync o b) with
  | .error e => .error e
  | .ok p => .ok (advanceCol p, frameCommit (fall b.prev o.byte) b)

/-! ### CONSTRUCT and THUMBNAIL -/

/-- The state of a block that CONSTRUCT has just made (70_reset_and_hazards.md R103; D2, log entry 2). Every byte of FB
holds what an unlisted offset reads as, so nothing is listed (10_state.md R21). -/
def freshBlock (c : Cfg) : Block := { cfg := c, row := -1, col := 0, cursor := 0, prev := 0x00, fb := [] }

/-- The thumbnail of an accepted source: destination pixel (x, y) is a copy of the four bytes of source pixel (4x, 4y),
rows top to bottom and each left to right, so that it lands at THUMB offset `4(160·y + x)` (45_thumbnail.md R80, R82;
20_memory.md R36, R37). -/
def sampleThumbnail (src : Bytes) (sw : Nat) : Bytes :=
  (List.range thumbH).flatMap fun y => (List.range thumbW).flatMap fun x =>
    readSrc src (pixelOffset sw (thumbFactor * x) (thumbFactor * y)) bytesPerPixel

/-! ### Results -/

/-- The operation's result goes to whoever issued it (30_encoding.md R56). -/
def State.deliver (r : Result) (s : State) : State := { s with delivered := r :: s.delivered }

/-- The state with this block. -/
def State.setBlock (b : Block) (s : State) : State := { s with block := some b }

/-- An error result: "the state after an error result is the state before the operation" (60_exceptions.md R96, D13).
The block has no trap, so this is all that raising an error does (R89, R91). -/
def raiseError (r : Result) (s : State) : Host.Outcome State Fault Refusal := .next (s.deliver r)

/-- A request the boundary refuses: ConfigError for a negative TimingConfig field (60_exceptions.md R88 clause 3). -/
def rejectRequest (e : RequestError) (s : State) : Host.Outcome State Fault Refusal :=
  match e with
  | .negativeField => raiseError .configError s

/-- The payload of the latest FrameCommit of the block that stands now, by the results given since it was constructed
(45_thumbnail.md R86; log entry 18). -/
def latestCommit : List Result → Option Bytes
  | [] => none
  | .tick (some p) :: _ => some p
  | .constructed :: _ => none
  | .tick none :: rs => latestCommit rs
  | .configError :: rs => latestCommit rs
  | .thumbnail _ :: rs => latestCommit rs
  | .dimensionError :: rs => latestCommit rs

/-- The THUMBNAIL the host issues of a block's own picture: the latest committed payload, or the CONSTRUCT image before
the first, with `sw = W` and `sh = H` (45_thumbnail.md R86, D12). -/
def ownThumbnail (b : Block) (s : State) : Instr :=
  .thumbnail ((latestCommit s.delivered).getD (copyFb (freshBlock b.cfg))) b.cfg.width b.cfg.height

end Sys2Proof.Machine
end

