-- ==== Sys2Proof/Machine/Advance.lean ====
section
/-! DEFINITION. The meaning of ADVANCE (40_advance.md R61). -/

namespace Sys2Proof.Machine

/-- ADVANCE(s): the block's tick; its result is `none` or `some FrameCommit(payload)` (40_advance.md R61,
30_encoding.md R56). No block, no ADVANCE (70_reset_and_hazards.md R107). -/
def execAdvance (o : Sample) (s : State) : Host.Outcome State Fault Refusal :=
  match s.block with
  | none => .refused (.noBlock "ADVANCE")
  | some b =>
    match advanceBlock o b with
    | .error e => .fault e
    | .ok (b', commit) => .next ((s.setBlock b').deliver (.tick commit))

end Sys2Proof.Machine
end

