-- ==== Sys2Proof/Machine/Construct.lean ====
section
/-! DEFINITION. The meaning of CONSTRUCT (70_reset_and_hazards.md R103). -/

namespace Sys2Proof.Machine

/-- CONSTRUCT(cfg): a new block in place of any that stands (70_reset_and_hazards.md R103, R106), or ConfigError, which
leaves everything as it was (60_exceptions.md R88, R89). -/
def execConstruct (c : Cfg) (s : State) : Host.Outcome State Fault Refusal :=
  if configAccepted s.fbCapacity c then .next ((s.setBlock (freshBlock c)).deliver .constructed)
  else raiseError .configError s

end Sys2Proof.Machine
end

