-- ==== Sys2Proof/Machine/Thumbnail.lean ====
section
/-! DEFINITION. The meaning of THUMBNAIL (45_thumbnail.md R80). -/

namespace Sys2Proof.Machine

/-- THUMBNAIL(src, sw, sh): the 76800-byte image, or DimensionError; no block state is read or changed
(45_thumbnail.md R80, R81, R84). No block, no THUMBNAIL (70_reset_and_hazards.md R107). -/
def execThumbnail (src : Bytes) (sw sh : Nat) (s : State) : Host.Outcome State Fault Refusal :=
  match s.block with
  | none => .refused (.noBlock "THUMBNAIL")
  | some _ =>
    if dimensionsAccepted src sw sh then .next (s.deliver (.thumbnail (sampleThumbnail src sw)))
    else raiseError .dimensionError s

end Sys2Proof.Machine
end

