-- ==== Sys2Proof/Machine/Dispatch.lean ====
section
/-! DEFINITION. One arm for each operation of Instr. -/

namespace Sys2Proof.Machine

def exec (i : Instr) (s : State) : Host.Outcome State Fault Refusal :=
  match i with
  | .advance o => Sys2Proof.Machine.execAdvance o s
  | .construct c => Sys2Proof.Machine.execConstruct c s
  | .thumbnail src sw sh => Sys2Proof.Machine.execThumbnail src sw sh s

end Sys2Proof.Machine
end

