-- ==== Sys2Proof/Machine/Step.lean ====
section
/-! DEFINITION. One step: the oldest operation the host has issued, run as one atomic operation (20_memory.md R43,
00_scope.md R5). -/

namespace Sys2Proof.Machine

/-- The block "acts only when an operation arrives … and keeps all state between operations" (60_exceptions.md R102);
operations run one at a time in the order the host issued them (20_memory.md R43, 60_exceptions.md R98). -/
def step (s : State) : Host.Outcome State Fault Refusal :=
  match s.pending with
  | [] => .next s
  | r :: rest =>
    match decodeRequest r with
    | .ok i => exec i { s with pending := rest }
    | .error e => rejectRequest e { s with pending := rest }

/-- `s` with one sample byte as the next operation issued (log entry 3). An instruction has 8 bits, so the byte is all of
`w` that an instruction holds. -/
def State.withFetchWord (s : State) (_nbits w : Nat) : State :=
  { s with pending := .sample (BitVec.ofNat 8 w) :: s.pending }

end Sys2Proof.Machine
end

