-- ==== Sys2Proof/Safety.lean ====
section
/-! DEFINITION. What a safe state and a safe run are: the invariant behind 10_state.md R31, where an operation stores,
runs of operations, and what the claims about whole lines, whole frames and finite counters speak of. -/

namespace Sys2Proof.Machine

/-- The most `cursor` can be at a given `row` and `col` (the proof sketch of 10_state.md R31): nothing is painted above
the window; each finished row of the window has painted at most `4W` bytes, and the row at hand at most four bytes for
each col unit from its first group on; below the window the whole of FB. -/
def Block.cursorLimit (b : Block) : Nat :=
  if b.row < b.cfg.minRow then 0
  else if b.row < b.cfg.maxRow then
    4 * (b.cfg.width * (b.row - b.cfg.minRow).toNat + min (b.col - b.cfg.firstCol) b.cfg.width)
  else b.cfg.fbSize

/-- What CONSTRUCT establishes and every ADVANCE keeps, for a realisation of the given capacity. Clauses 1 to 3 and 5 of
10_state.md R31, and clause 4 in the stronger form that a step keeps. -/
structure Block.Inv (capacity : Option Nat) (b : Block) : Prop where
  /-- the configuration is one that CONSTRUCT accepts (R16, R88) -/
  cfg_accepted : b.cfg.wf capacity = true
  /-- R31 clause 1 -/
  row_ge : -1 ≤ b.row
  /-- R31 clause 2 -/
  col_aligned : b.col % 4 = 0
  /-- R31 clause 3 -/
  cursor_aligned : b.cursor % 16 = 0
  /-- R31 clause 4, strengthened -/
  cursor_le : b.cursor ≤ b.cursorLimit
  /-- FB is in canonical form -/
  fb_wf : b.fb.wf = true
  /-- FB lists no offset outside FB (R32), and no alpha byte, which all read 0xFF (R22) -/
  fb_cells : ∀ c ∈ b.fb, c.1 < b.cfg.fbSize ∧ c.1 % 4 ≠ 3

/-- The invariant of the machine: a block that stands meets its own. -/
def State.Inv (s : State) : Prop := ∀ b, s.block = some b → b.Inv s.fbCapacity

/-- The five clauses of 10_state.md R31 in the rule's own words. -/
def Block.RuleR31 (b : Block) : Prop :=
  -1 ≤ b.row ∧ b.col % 4 = 0 ∧ b.cursor % 16 = 0 ∧ b.cursor ≤ b.cfg.fbSize ∧
    ∀ k, k < b.cfg.fbSize → k % 4 = 3 → b.fb.read k = 0xFF

/-- Where an operation stores in FB: the first of the 16 bytes an ADVANCE paints, and nothing for an ADVANCE outside the
window or a THUMBNAIL (20_memory.md R39). A CONSTRUCT that succeeds makes another FB and stores nothing in this one. -/
def storesAt (i : Instr) (b : Block) : Option Nat :=
  match i with
  | .advance o =>
    if visible (afterSync o b).cfg (afterSync o b).row (afterSync o b).col then some (afterSync o b).cursor else none
  | .construct _ => none
  | .thumbnail _ _ _ => none

/-- Operations run one after another, stopping at the first fault or refusal (20_memory.md R43). -/
def runOps : List Instr → State → Host.Outcome State Fault Refusal
  | [], s => .next s
  | i :: is, s =>
    match exec i s with
    | .next t => runOps is t
    | .fault e => .fault e
    | .refused r => .refused r

/-- No sync edge in any tick of a stream that follows the sample `prev`. -/
def noEdges : Byte → List Sample → Bool
  | _, [] => true
  | prev, o :: os =>
    !vsFall (fall prev o.byte) && !hsFall (fall prev o.byte) && noEdges o.byte os

/-- How many groups a line of `n` ticks paints in a window row: the `k < n` with `minCol <= 4k < maxCol`
(40_advance.md R77). -/
def groupsInLine (c : Cfg) (n : Nat) : Nat :=
  ((List.range n).filter fun k => decide (c.minCol ≤ 4 * k ∧ 4 * k < c.maxCol)).length

/-- Every row so far was a full line: `cursor` stands where 40_advance.md R78 puts the next group. -/
def Block.Aligned (b : Block) : Prop := b.cursor = b.cursorLimit

/-- A realisation's finite counters: `row` and `col` held at their largest values (10_state.md R30). -/
def Block.saturate (maxRowValue : Int) (maxColValue : Nat) (b : Block) : Block :=
  { b with row := min b.row maxRowValue, col := min b.col maxColValue }

/-- ADVANCEs of a realisation with saturating counters (10_state.md R30). -/
def runSaturating (maxRowValue : Int) (maxColValue : Nat) :
    List Sample → State → Host.Outcome State Fault Refusal
  | [], s => .next s
  | o :: os, s =>
    match exec (.advance o) s with
    | .next t =>
      runSaturating maxRowValue maxColValue os
        { t with block := t.block.map (Block.saturate maxRowValue maxColValue) }
    | .fault e => .fault e
    | .refused r => .refused r

end Sys2Proof.Machine
end

