-- ==== Sys2Proof/Certificates/Slice0/Obligations.lean ====
section
/-! DEFINITION. The statements for the provers, in the order of the spec's files.

Throughout, `pending` and `delivered` are the model's own fields (log entries 3 and 4), `fbCapacity` is the spec's
parameter FB_CAPACITY (D8, log entry 5), and a byte of FB is read through the model's canonical form (log entry 16). What
else a statement takes from a decision of the spec or of the model stands in its docstring, with its log entry. -/

open Sys2Proof Sys2Proof.Machine

/-! ### Encoding (30_encoding.md) -/

/-- 30_encoding.md R51: the fields of a sample are its unsigned bit slices, said as numbers. -/
def Obligations.SampleFieldsAreTheBitSlices : Prop :=
  ∀ s : Byte,
    ((decodeSample s).v = true ↔ s.toNat / 128 = 1) ∧ ((decodeSample s).h = true ↔ s.toNat / 64 % 2 = 1) ∧
      (decodeSample s).b.toNat = s.toNat / 16 % 4 ∧ (decodeSample s).g.toNat = s.toNat / 4 % 4 ∧
      (decodeSample s).r.toNat = s.toNat % 4

/-- Six sample bytes, written out from the layout `VHBBGGRR` of 30_encoding.md R50. -/
def Obligations.SampleWordsDecodeToTheirFields : Prop :=
  decode 0b11000000 = .advance { v := true, h := true, b := 0, g := 0, r := 0 } ∧
    decode 0b01000000 = .advance { v := false, h := true, b := 0, g := 0, r := 0 } ∧
    decode 0b10000000 = .advance { v := true, h := false, b := 0, g := 0, r := 0 } ∧
    decode 0b11100111 = .advance { v := true, h := true, b := 2, g := 1, r := 3 } ∧
    decode 0b00011011 = .advance { v := false, h := false, b := 1, g := 2, r := 3 } ∧
    decode 0b00110100 = .advance { v := false, h := false, b := 3, g := 1, r := 0 }

/-- 30_encoding.md R52: each of the 256 values decodes to ADVANCE, alone and at the front of any byte string, and that
ADVANCE goes on from every state of a block that meets the invariant: no value is reserved and none traps. -/
def Obligations.EveryByteIsAnAdvanceThatGoesOn : Prop :=
  ∀ w, w < 256 → ∃ o : Sample,
    decodeTableWord 8 w = some (.advance o) ∧ o.byte.toNat = w ∧
      (∀ rest, decodeBytes (BitVec.ofNat 8 w :: rest) = .ok (.advance o, rest)) ∧
      ∀ s b, s.block = some b → s.Inv → ∃ t, exec (.advance o) s = .next t

/-- Decoding an encoded operation gives it back, encoding a decoded byte gives it back, and an operation without an
encoding (CONSTRUCT and THUMBNAIL) is selected by no bit pattern (30_encoding.md R56, R59, R60). The three operations of
R56 are the spec's decision D1 (log entry 17), and that ADVANCE alone has a word is log entry 20. -/
def Obligations.DecodeOfEncodeIsTheOperation : Prop :=
  (∀ i w, encode i = some w → decode w = i) ∧ (∀ w, encode (decode w) = some w) ∧
    ∀ i, encode i = none ↔ ∀ w, decode w ≠ i

/-- 30_encoding.md R54: each channel is exactly 85 times its 2-bit level; the pixel of a sample is its R, G and B
channels and the alpha 255 of R55. -/
def Obligations.ChannelsAreExactlyEightyFiveTimesTheLevel : Prop :=
  (∀ l : Level, (channel l).toNat = 85 * l.toNat) ∧
    channel 0 = 0x00 ∧ channel 1 = 0x55 ∧ channel 2 = 0xAA ∧ channel 3 = 0xFF ∧
    ∀ o : Sample, o.pixel = [85 * o.r.setWidth 8, 85 * o.g.setWidth 8, 85 * o.b.setWidth 8, 255]

/-! ### ADVANCE (40_advance.md) -/

/-- 40_advance.md R63: bit i of `fall` is 1 exactly where bit i of `prev` is 1 and bit i of the sample is 0, and the two
edges are its bits 7 and 6. -/
def Obligations.FallIsTheBitsThatCleared : Prop :=
  ∀ prev s : Byte,
    fall prev s = prev &&& ~~~s ∧
      (∀ i, i < 8 → ((fall prev s).getLsbD i = true ↔ prev.getLsbD i = true ∧ s.getLsbD i = false)) ∧
      (vsFall (fall prev s) = true ↔ prev.getLsbD 7 = true ∧ s.getLsbD 7 = false) ∧
      (hsFall (fall prev s) = true ↔ prev.getLsbD 6 = true ∧ s.getLsbD 6 = false)

/-- ADVANCE completes, with the whole next state that 40_advance.md R61's pseudocode gives, wherever its paint (if any)
fits FB. The payload's form and number are the spec's decisions D3 and D4 (log entry 8); the results and the queue, which
stands, are the model's fields `delivered` and `pending` (log entries 4 and 3), and the capacity, which stands, is D8 (log
entry 5). -/
def Obligations.AdvanceCompletesAsThePseudocodeSays : Prop :=
  ∀ (o : Sample) (s : State) (b : Block), s.block = some b →
    let f := fall b.prev o.byte
    let row := (if vsFall f then -1 else b.row) + (if hsFall f then 1 else 0)
    let col := if hsFall f then 0 else b.col
    let cursor := if vsFall f then 0 else b.cursor
    let paints := visible b.cfg row col
    (paints = true → cursor + 16 ≤ b.cfg.fbSize) →
      exec (.advance o) s = .next
        { s with
          block := some
            { cfg := b.cfg
              row := row
              col := col + 4
              cursor := if paints then cursor + 16 else cursor
              prev := o.byte
              fb := if paints then paintGroup b.fb cursor o.pixel else b.fb }
          delivered := .tick (if vsFall f then some (copyFb b) else none) :: s.delivered }

/-- 40_advance.md R68, R69, R71, R72: where `row`, `col` and `cursor` stand at the end of a tick, for every sample and
every state from which the tick goes on. Nothing but the two edges sets them back. -/
def Obligations.SyncEdgesAloneMoveThePosition : Prop :=
  ∀ (o : Sample) (s t : State) (b : Block), s.block = some b → exec (.advance o) s = .next t →
    ∃ b', t.block = some b' ∧
      (vsFall (fall b.prev o.byte) = true → hsFall (fall b.prev o.byte) = false → b'.row = -1) ∧
      (vsFall (fall b.prev o.byte) = true → hsFall (fall b.prev o.byte) = true → b'.row = 0) ∧
      (vsFall (fall b.prev o.byte) = false → hsFall (fall b.prev o.byte) = true → b'.row = b.row + 1) ∧
      (vsFall (fall b.prev o.byte) = false → hsFall (fall b.prev o.byte) = false → b'.row = b.row) ∧
      (hsFall (fall b.prev o.byte) = true → b'.col = 4) ∧
      (hsFall (fall b.prev o.byte) = false → b'.col = b.col + 4) ∧
      (vsFall (fall b.prev o.byte) = true → b'.cursor = 0 ∨
        b'.cursor = 16 ∧ visible b.cfg b'.row (b'.col - 4) = true) ∧
      (vsFall (fall b.prev o.byte) = false → b'.cursor = b.cursor ∨
        b'.cursor = b.cursor + 16 ∧ visible b.cfg b'.row (b'.col - 4) = true)

/-- 40_advance.md R64: a tick stores its sample, and the next tick's edges are the sync bits that were 1 in it and are 0
now, as the position they leave shows. -/
def Obligations.TheNextTickComparesWithTheStoredSample : Prop :=
  ∀ (o o' : Sample) (s t u : State), exec (.advance o) s = .next t → exec (.advance o') t = .next u →
    ∃ b c, t.block = some b ∧ u.block = some c ∧ b.prev = o.byte ∧ c.prev = o'.byte ∧
      c.row = (if o.v && !o'.v then -1 else b.row) + (if o.h && !o'.h then 1 else 0) ∧
      c.col = (if o.h && !o'.h then 0 else b.col) + 4

/-- 40_advance.md R73, R74: ADVANCE paints exactly where `row` and `col`, after the sync branches of the same tick, lie in
the half-open window, and what it paints is four pixels of the colour of the sample itself. Any address outside the 16
painted bytes, and every address of a tick outside the window, reads as before. -/
def Obligations.AdvancePaintsExactlyInsideTheWindow : Prop :=
  ∀ (o : Sample) (s : State) (b : Block), s.block = some b → b.fb.wf = true →
    let f := fall b.prev o.byte
    let row : Int := (if vsFall f then -1 else b.row) + (if hsFall f then 1 else 0)
    let col := if hsFall f then 0 else b.col
    let cursor := if vsFall f then 0 else b.cursor
    let inside := ((b.cfg.vbp + b.cfg.vp : Nat) : Int) ≤ row ∧ row < ((b.cfg.vbp + b.cfg.vp + b.cfg.vv : Nat) : Int) ∧
      b.cfg.hbp + b.cfg.hp ≤ col ∧ col < b.cfg.hbp + b.cfg.hp + b.cfg.hv
    (inside → cursor + 16 ≤ b.cfg.fbSize →
      ∃ t b', exec (.advance o) s = .next t ∧ t.block = some b' ∧ b'.cursor = cursor + 16 ∧
        ∀ k, b'.fb.read k =
          if cursor ≤ k ∧ k < cursor + 16 then
            [85 * o.r.setWidth 8, 85 * o.g.setWidth 8, 85 * o.b.setWidth 8, 255].getD ((k - cursor) % 4) 0
          else b.fb.read k) ∧
    (¬ inside →
      ∃ t b', exec (.advance o) s = .next t ∧ t.block = some b' ∧ b'.cursor = cursor ∧
        ∀ k, b'.fb.read k = b.fb.read k)

/-- The painter's bounds check (60_exceptions.md R92): the spec's own decision D14, log entry 15. -/
def Obligations.PaintBeyondFbFaultsWithItsCursor : Prop :=
  ∀ (o : Sample) (s : State) (b : Block), s.block = some b →
    visible b.cfg (afterSync o b).row (afterSync o b).col = true →
    b.cfg.fbSize < (afterSync o b).cursor + 16 →
      exec (.advance o) s = .fault (.paintOutOfBounds (afterSync o b).cursor)

/-- A vertical-sync falling edge, and nothing else, delivers one FrameCommit: FB_SIZE bytes, each FB's at the start of
the tick (40_advance.md R67). That it is a copy, and one an edge, are the spec's decisions D3 and D4 (log entry 8); the
list it is put in is log entry 4. -/
def Obligations.FrameCommitIsFbAtTheStartOfTheTick : Prop :=
  ∀ (o : Sample) (s t : State) (b : Block), s.block = some b → exec (.advance o) s = .next t →
    (b.prev.getLsbD 7 = true ∧ o.v = false →
      ∃ p, t.delivered = .tick (some p) :: s.delivered ∧ p.length = b.cfg.fbSize ∧
        ∀ k, k < b.cfg.fbSize → p[k]? = some (b.fb.read k)) ∧
    (¬ (b.prev.getLsbD 7 = true ∧ o.v = false) → t.delivered = .tick none :: s.delivered)

/-- Both edges in one tick (40_advance.md R70): `row` and `col` start a frame, one FrameCommit is delivered, and the same
tick paints if the window begins at the origin. That each edge gives exactly one commit is the spec's decision D4 (log entry
8), the list it is put in is log entry 4, and the invariant holds of a width that is a multiple of 4 (D5, log entry 10). -/
def Obligations.BothEdgesInOneTickStartAFrame : Prop :=
  ∀ (o : Sample) (s : State) (b : Block), s.block = some b → b.Inv s.fbCapacity →
    b.prev.getLsbD 7 = true → b.prev.getLsbD 6 = true → o.v = false → o.h = false →
      ∃ t b' p, exec (.advance o) s = .next t ∧ t.block = some b' ∧ b'.row = 0 ∧ b'.col = 4 ∧
        t.delivered = .tick (some p) :: s.delivered ∧
        b'.cursor = if b.cfg.minRow = 0 ∧ b.cfg.minCol = 0 then 16 else 0

/-- 30_encoding.md R53: the sync bits act only through their falling edges. Two samples of one colour that make the same
edges (from any stored samples) end alike, but for the sample stored; their levels do not gate the painter. -/
def Obligations.SyncLevelsActOnlyThroughTheirEdges : Prop :=
  ∀ (o o' : Sample) (p : Byte) (s : State) (b : Block), s.block = some b →
    o.r = o'.r → o.g = o'.g → o.b = o'.b →
    (b.prev.getLsbD 7 && !o.v) = (p.getLsbD 7 && !o'.v) →
    (b.prev.getLsbD 6 && !o.h) = (p.getLsbD 6 && !o'.h) →
      (∀ e, exec (.advance o) s = .fault e ↔
        exec (.advance o') { s with block := some { b with prev := p } } = .fault e) ∧
      ∀ t, exec (.advance o) s = .next t →
        ∃ u c, exec (.advance o') { s with block := some { b with prev := p } } = .next u ∧
          t.block = some c ∧ u.block = some { c with prev := o'.byte } ∧ u.delivered = t.delivered

/-- A line of the window (40_advance.md R77): from its horizontal-sync edge on, tick k sees `col = 4k`; a line of n ticks
paints one group for each k with `minCol <= 4k < maxCol`, never more than W/4, and all of them exactly when it lasts
`ceil(maxCol / 4)` ticks. That W is a multiple of 4, which the invariant says, is the spec's decision D5 (log entry 10), and
a `minCol` that is none is D6 (log entry 11). -/
def Obligations.LinePaintsEachGroupOnce : Prop :=
  ∀ (o : Sample) (os : List Sample) (s : State) (b : Block), s.block = some b → b.Inv s.fbCapacity →
    vsFall (fall b.prev o.byte) = false → hsFall (fall b.prev o.byte) = true → noEdges o.byte os = true →
      (∃ t b', runOps (.advance o :: os.map .advance) s = .next t ∧ t.block = some b' ∧
        b'.row = b.row + 1 ∧ b'.col = 4 * (os.length + 1) ∧
        b'.cursor = b.cursor +
          (if (b.cfg.minRow : Int) ≤ b.row + 1 ∧ b.row + 1 < b.cfg.maxRow then
            16 * groupsInLine b.cfg (os.length + 1) else 0)) ∧
      groupsInLine b.cfg (os.length + 1) ≤ b.cfg.width / 4 ∧
      (groupsInLine b.cfg (os.length + 1) = b.cfg.width / 4 ↔ (b.cfg.maxCol + 3) / 4 ≤ os.length + 1)

/-- Full lines give a row-major picture (40_advance.md R78, 20_memory.md R35): where every window row that a tick leaves
behind had its `maxCol` col units, `cursor` stays where the rule puts the next group, a vertical-sync edge puts it there
from any state, and the group painted at `row` and `col` is pixels `x .. x+3` of row `y`, with `y = row − minRow` and
`x = col − c0`. Accepting a `minCol` that is no multiple of 4 is the spec's decision D6 (log entry 11), and that W is one,
which the invariant says, is D5 (log entry 10). -/
def Obligations.FullLinesPaintARowMajorPicture : Prop :=
  ∀ (o : Sample) (s : State) (b : Block), s.block = some b → b.Inv s.fbCapacity →
    (vsFall (fall b.prev o.byte) = false → b.Aligned ∧
      (hsFall (fall b.prev o.byte) = true → (b.cfg.minRow : Int) ≤ b.row → b.row < b.cfg.maxRow →
        b.cfg.maxCol ≤ b.col)) →
      ∃ t b', exec (.advance o) s = .next t ∧ t.block = some b' ∧ b'.Aligned ∧
        (visible b.cfg (afterSync o b).row (afterSync o b).col = true →
          let y := ((afterSync o b).row - b.cfg.minRow).toNat
          let x := (afterSync o b).col - b.cfg.firstCol
          b.cfg.firstCol ≤ (afterSync o b).col ∧ x + 4 ≤ b.cfg.width ∧ y < b.cfg.height ∧
            ∀ i j, i < 4 → j < 4 → b'.fb.read (4 * (b.cfg.width * y + x + i) + j) = o.pixel.getD j 0)

/-- Counters that saturate at or beyond the window's upper bounds give the same results as unbounded ones, over any
stream of samples (10_state.md R30, the spec's decision D9, log entry 9). The fault that both runs may end in is D14 (log
entry 15); the results are log entry 4. -/
def Obligations.SaturatingCountersGiveTheSameResults : Prop :=
  ∀ (maxRowValue : Int) (maxColValue : Nat) (os : List Sample) (s : State) (b : Block), s.block = some b →
    (b.cfg.maxRow : Int) ≤ maxRowValue → b.cfg.maxCol ≤ maxColValue →
      (∀ t, runOps (os.map .advance) s = .next t →
        ∃ u, runSaturating maxRowValue maxColValue os s = .next u ∧ u.delivered = t.delivered) ∧
      ∀ e, runOps (os.map .advance) s = .fault e → runSaturating maxRowValue maxColValue os s = .fault e

/-- After a CONSTRUCT that succeeds, whatever operations follow, each of the 256 samples gives a next state and an
optional FrameCommit, and no error. 40_advance.md R79 says so of ADVANCE. That a later CONSTRUCT replaces the block, and one
that fails leaves the old block standing so that operations still go on, are the spec's decisions D13 and D22 (log entries 7
and 19, unsafe). That no reachable tick meets the painter's check (D14, log entry 15) rests on the registers at CONSTRUCT
(D2, log entry 2) and on a width that is a multiple of 4 (D5, log entry 10). -/
def Obligations.AdvanceIsTotalOnReachableStates : Prop :=
  ∀ (c : Cfg) (s : State), c.wf s.fbCapacity = true →
    ∃ t, exec (.construct c) s = .next t ∧
      ∀ is : List Instr, ∃ u, runOps is t = .next u ∧
        ∀ w : Byte, ∃ v commit, exec (decode w) u = .next v ∧ v.delivered = .tick commit :: u.delivered

/-! ### State and memory (10_state.md, 20_memory.md) -/

/-- The block that stands at reset is what CONSTRUCT leaves (70_reset_and_hazards.md R103, R104), with the image of
10_state.md R21 in FB. Its TimingConfig is the model's choice (log entry 1), and `row`, `col`, `cursor` and `prev` are the
spec's decision D2 (log entry 2). The unbounded capacity is the default of 00_scope.md R10 (D8, log entry 5); the empty
queue and the empty list of results are the model's (log entries 3 and 4); that an offset beyond FB reads on in R21's
pattern is the model's form of FB (log entry 16). -/
def Obligations.ResetIsTheStateConstructLeaves : Prop :=
  State.reset.fbCapacity = none ∧ State.reset.pending = [] ∧ State.reset.delivered = [] ∧
    ∃ b, State.reset.block = some b ∧ b.cfg = { hbp := 2, hp := 2, hv := 4, vbp := 1, vp := 1, vv := 2 } ∧
      b.row = -1 ∧ b.col = 0 ∧ b.cursor = 0 ∧ b.prev = 0x00 ∧ b.cfg.fbSize = 32 ∧
      ∀ k, b.fb.read k = if k % 4 = 3 then 0xFF else 0x00

/-- The reset state meets the invariant. Its configuration is the model's choice (log entry 1), its registers are the
spec's decision D2 (log entry 2), its capacity D8 (log entry 5), and the form of its FB is log entry 16. -/
def Obligations.ResetMeetsTheInvariant : Prop := State.reset.Inv

/-- The invariant gives the five clauses of 10_state.md R31. That the invariant holds of an accepted configuration, whose
width is a multiple of 4, is the spec's decision D5 (log entry 10). -/
def Obligations.InvariantGivesRuleR31 : Prop :=
  ∀ (capacity : Option Nat) (b : Block), b.Inv capacity → b.RuleR31

/-- Every step keeps the invariant, from every state that meets it: a configuration that CONSTRUCT accepts, the counters'
alignment and bounds, and FB in canonical form with every alpha byte 0xFF and nothing outside FB (10_state.md R22, R31;
20_memory.md R40, R41). Those rules speak of ADVANCE. What a step does with a CONSTRUCT rests on the spec's decisions D2 (the
new registers, log entry 2), D5 and D8 (the checks, log entries 10 and 5) and D13 and D22 (an old block is replaced whole,
or stands where a CONSTRUCT fails, log entries 7 and 19, unsafe). The queue is log entry 3, FB's form log entry 16. -/
def Obligations.EveryStepKeepsTheInvariant : Prop :=
  ∀ s t : State, s.Inv → step s = .next t → t.Inv

/-- Every state that operations reach from a CONSTRUCT that succeeded has a block that meets the five clauses of
10_state.md R31. R31 speaks of sequences of ADVANCEs. That a later CONSTRUCT replaces the block, and one that fails goes on
and leaves the old block standing, are the spec's decisions D13 and D22 (log entries 7 and 19, unsafe). The registers at
CONSTRUCT are D2 (log entry 2), and a width that is a multiple of 4 is D5 (log entry 10). -/
def Obligations.ReachableBlocksMeetRuleR31 : Prop :=
  ∀ (c : Cfg) (s t : State) (is : List Instr), c.wf s.fbCapacity = true →
    exec (.construct c) s = .next t →
      ∃ u b, runOps is t = .next u ∧ u.block = some b ∧ b.RuleR31

/-- A byte of FB that no paint of the operation covers keeps its value, over every operation but a CONSTRUCT that makes a
new block; a vertical-sync edge resets `cursor` (from where the same tick may paint) and leaves FB as it is (10_state.md
R23). That a CONSTRUCT that fails keeps the old block and its FB is the spec's decisions D13 and D22 (log entries 7 and 19,
unsafe): no unmarked rule says it. FB's form is log entry 16. -/
def Obligations.FbKeepsEveryByteThatIsNotPainted : Prop :=
  ∀ (i : Instr) (s t : State) (b : Block), s.block = some b → exec i s = .next t →
    (∃ c, i = .construct c ∧ c.wf s.fbCapacity = true) ∨
      ∃ b', t.block = some b' ∧
        (∀ a k, storesAt i b = some a → ¬ (a ≤ k ∧ k < a + 16) → b'.fb.read k = b.fb.read k) ∧
        (storesAt i b = none → ∀ k, b'.fb.read k = b.fb.read k) ∧
        ∀ o, i = .advance o → vsFall (fall b.prev o.byte) = true →
          b'.cursor = 0 ∨ b'.cursor = 16 ∧ storesAt i b = some 0

/-- The frame of the three operations: the capacity and the queue stand; ADVANCE keeps the configuration, THUMBNAIL the
whole block, CONSTRUCT the whole block where it fails; and each adds one result to those given before. `pending` and
`delivered` are the model's own fields (log entries 3 and 4), and `fbCapacity` is the spec's parameter (D8, log entry 5).
That a failed CONSTRUCT keeps the old block is the spec's decisions D13 and D22 (log entries 7 and 19, unsafe): no
unmarked rule says it. -/
def Obligations.OperationsLeaveTheRestAlone : Prop :=
  ∀ (i : Instr) (s t : State), exec i s = .next t →
    t.fbCapacity = s.fbCapacity ∧ t.pending = s.pending ∧ (∃ r, t.delivered = r :: s.delivered) ∧
      (match i with
       | .advance _ => t.block.map Block.cfg = s.block.map Block.cfg
       | .construct c => c.wf s.fbCapacity = false → t.block = s.block
       | .thumbnail _ _ _ => t.block = s.block)

/-- Two memories in canonical form that read alike everywhere are one and the same list (log entry 16). -/
def Obligations.CanonicalMemoriesThatReadAlikeAreEqual : Prop :=
  ∀ m n : Memory, m.wf = true → n.wf = true → (∀ k, m.read k = n.read k) → m = n

/-- A result once delivered never changes: every run only adds results, at most one a step (20_memory.md R44, the spec's
decision D3, log entry 8). The list of results is log entry 4, the queue that a step takes from log entry 3. -/
def Obligations.DeliveredResultsNeverChange : Prop :=
  ∀ (n : Nat) (s t : State), core.run n s = .next t →
    ∃ added : List Result, added.length ≤ n ∧ t.delivered = added ++ s.delivered

/-- Operations run whole, one after another, in the order the host issued them (20_memory.md R43, the spec's decision
D24, log entry 17; the queue and its requests are log entry 3). -/
def Obligations.RunsExecuteTheQueueInOrder : Prop :=
  ∀ (is : List Instr) (rest : List Request) (s : State), s.pending = is.map encodeRequest ++ rest →
    (core.run is.length s : Host.Outcome State Fault Refusal) = runOps is { s with pending := rest }

/-! ### THUMBNAIL (45_thumbnail.md) -/

/-- THUMBNAIL completes on every source it accepts with a 160 × 120 image, row-major, whose pixel (x, y) is a verbatim
copy of the four bytes of source pixel (4x, 4y), and changes nothing else (45_thumbnail.md R80, R82, R83, R84). The source's
layout and length check are the spec's decisions D10 and D11 (log entries 13 and 14); the list the image is put in and the
queue, which stands, are log entries 4 and 3. -/
def Obligations.ThumbnailCopiesEveryFourthPixel : Prop :=
  ∀ (src : Bytes) (sw sh : Nat) (s : State) (b : Block), s.block = some b →
    640 ≤ sw → 480 ≤ sh → src.length = sw * sh * 4 →
      ∃ image, exec (.thumbnail src sw sh) s = .next { s with delivered := .thumbnail image :: s.delivered } ∧
        image.length = 76800 ∧
        ∀ x y k, x < 160 → y < 120 → k < 4 →
          4 * (sw * (4 * y) + 4 * x) + k < src.length ∧
            image[4 * (160 * y + x) + k]? = src[4 * (sw * (4 * y) + 4 * x) + k]?

/-- Every other source gives DimensionError, which changes nothing else (45_thumbnail.md R81, 60_exceptions.md R90, R91).
The length check is the spec's decision D11 (log entry 14); an error without a payload, and the untouched state, are D13
(log entry 7). The list it is put in and the queue, which stands, are log entries 4 and 3. -/
def Obligations.ThumbnailOfABadSourceGivesDimensionError : Prop :=
  ∀ (src : Bytes) (sw sh : Nat) (s : State) (b : Block), s.block = some b →
    (sw < 640 ∨ sh < 480 ∨ src.length ≠ sw * sh * 4) →
      exec (.thumbnail src sw sh) s = .next { s with delivered := .dimensionError :: s.delivered }

/-- 45_thumbnail.md R84: whatever its operands, THUMBNAIL leaves the block as it is, and ADVANCE goes on from there as it
would have without it. -/
def Obligations.ThumbnailChangesNoDecoderState : Prop :=
  ∀ (src : Bytes) (sw sh : Nat) (s : State) (b : Block), s.block = some b →
    ∃ t, exec (.thumbnail src sw sh) s = .next t ∧ t.block = some b ∧
      (∀ o u, exec (.advance o) s = .next u → ∃ v, exec (.advance o) t = .next v ∧ v.block = u.block) ∧
      ∀ o e, exec (.advance o) s = .fault e → exec (.advance o) t = .fault e

/-- 45_thumbnail.md R85: the result is a function of the operands alone, whatever the state and whatever came before. -/
def Obligations.ThumbnailDependsOnItsOperandsAlone : Prop :=
  ∀ (src : Bytes) (sw sh : Nat) (s s' : State) (b b' : Block), s.block = some b → s'.block = some b' →
    ∃ r t t', exec (.thumbnail src sw sh) s = .next t ∧ exec (.thumbnail src sw sh) s' = .next t' ∧
      t.delivered = r :: s.delivered ∧ t'.delivered = r :: s'.delivered

/-- The thumbnail of a block's own picture (45_thumbnail.md R86, the spec's decision D12, log entry 18): too small a
picture gives DimensionError, and before the first FrameCommit a large enough one is all opaque black. That the error
changes nothing else is D13 (log entry 7); the results are log entry 4. -/
def Obligations.OwnThumbnailBeforeAnyCommitIsBlack : Prop :=
  ∀ (s : State) (b : Block), s.block = some b →
    ((b.cfg.width < 640 ∨ b.cfg.height < 480) →
      exec (ownThumbnail b s) s = .next { s with delivered := .dimensionError :: s.delivered }) ∧
    (640 ≤ b.cfg.width → 480 ≤ b.cfg.height → latestCommit s.delivered = none →
      ∃ image, exec (ownThumbnail b s) s = .next { s with delivered := .thumbnail image :: s.delivered } ∧
        image.length = 76800 ∧
        ∀ j, j < 76800 → image[j]? = some (if j % 4 = 3 then 0xFF else 0x00))

/-! ### CONSTRUCT, errors and the step (60_exceptions.md, 70_reset_and_hazards.md) -/

/-- CONSTRUCT completes on every TimingConfig it accepts, whatever stood before: a new block with the registers of
70_reset_and_hazards.md R103. The values of `row`, `col`, `cursor` and `prev` are the spec's decision D2 (log entry 2);
the checks on the width's multiple of 4 and on the capacity are D5 and D8 (log entries 10 and 5); that a new block
replaces an old one whole is D22 (log entry 19). That a new FB lists nothing is the model's form (log entry 16); the results
and the queue, which stands, are log entries 4 and 3. -/
def Obligations.ConstructMakesANewBlock : Prop :=
  ∀ (c : Cfg) (s : State), c.hv ≠ 0 → c.vv ≠ 0 → c.hv % 4 = 0 →
    (∀ n, s.fbCapacity = some n → c.hv * c.vv * 4 ≤ n) →
      exec (.construct c) s = .next
        { s with
          block := some { cfg := c, row := -1, col := 0, cursor := 0, prev := 0x00, fb := [] }
          delivered := .constructed :: s.delivered }

/-- CONSTRUCT gives ConfigError on every other TimingConfig, and leaves all as it was, an old block included
(60_exceptions.md R88, R89). The checks on the width's multiple of 4 and on the capacity are the spec's decisions D5 and
D8 (log entries 10 and 5); an error without a payload is D13 (log entry 7), and that an old block stands is D13 and D22 (log
entries 7 and 19, unsafe). The results and the queue, which stands, are log entries 4 and 3. -/
def Obligations.ConstructRefusesABadConfig : Prop :=
  ∀ (c : Cfg) (s : State),
    (c.hv = 0 ∨ c.vv = 0 ∨ c.hv % 4 ≠ 0 ∨ ∃ n, s.fbCapacity = some n ∧ n < c.hv * c.vv * 4) →
      exec (.construct c) s = .next { s with delivered := .configError :: s.delivered }

/-- A request with a negative TimingConfig field is answered with ConfigError at the boundary, and only the queue moves on
(60_exceptions.md R88 clause 3, the spec's decision D7, log entry 12). An error without a payload is D13 (log entry 7), and
that nothing else changes, an old block included, is D13 and D22 (log entries 7 and 19, unsafe). The queue that the request
leaves and the list of results are log entries 3 and 4. -/
def Obligations.NegativeConfigFieldGivesConfigError : Prop :=
  ∀ (hbp hp hv vbp vp vv : Int) (rest : List Request) (s : State),
    s.pending = .construct hbp hp hv vbp vp vv :: rest →
    (hbp < 0 ∨ hp < 0 ∨ hv < 0 ∨ vbp < 0 ∨ vp < 0 ∨ vv < 0) →
      step s = .next { s with pending := rest, delivered := .configError :: s.delivered }

/-- A CONSTRUCT that succeeds leaves the image of 10_state.md R21, FB_SIZE = W × H × 4 bytes of opaque black, and the
invariant. That it does so whatever stood before is the spec's decision D22 (log entry 19); the registers that the invariant
speaks of are D2 (log entry 2), the checks that a CONSTRUCT must pass D5 and D8 (log entries 10 and 5), and FB's form is log
entry 16. -/
def Obligations.ConstructLeavesOpaqueBlackAndTheInvariant : Prop :=
  ∀ (c : Cfg) (s t : State), c.wf s.fbCapacity = true → exec (.construct c) s = .next t →
    t.Inv ∧ ∃ b, t.block = some b ∧ (copyFb b).length = c.hv * c.vv * 4 ∧
      ∀ k, k < c.hv * c.vv * 4 → (copyFb b)[k]? = some (if k % 4 = 3 then 0xFF else 0x00)

/-- The first tick after CONSTRUCT finds no edge, whatever its sample, and paints nothing (70_reset_and_hazards.md R112;
it rests on the spec's decision D2, log entry 2). The result and the queue, which stands, are log entries 4 and 3. -/
def Obligations.FirstTickAfterConstructFindsNoEdge : Prop :=
  ∀ (o : Sample) (c : Cfg) (s : State), s.block = some (freshBlock c) →
    exec (.advance o) s = .next
      { s with
        block := some { freshBlock c with col := 4, prev := o.byte }
        delivered := .tick none :: s.delivered }

/-- While no block exists there is no ADVANCE and no THUMBNAIL (70_reset_and_hazards.md R107, log entry 6). -/
def Obligations.NoAdvanceOrThumbnailWithoutABlock : Prop :=
  ∀ (o : Sample) (src : Bytes) (sw sh : Nat) (s : State), s.block = none →
    exec (.advance o) s = .refused (.noBlock "ADVANCE") ∧
      exec (.thumbnail src sw sh) s = .refused (.noBlock "THUMBNAIL")

/-- A step runs the operation that the oldest request decodes to, on the state with that request taken out: a sample byte
that encodes it, or the request that issues it. With an empty queue the block waits (60_exceptions.md R102, the spec's
decision D18; 70_reset_and_hazards.md R105). The queue is the model's own (log entry 3); one operation a step is the spec's
decision D24 (log entry 17), and that ADVANCE alone has a word is log entry 20. -/
def Obligations.StepRunsTheDecodedOperation : Prop :=
  (∀ (s : State) (i : Instr) (w : Byte) (rest : List Request),
    encode i = some w → s.pending = .sample w :: rest → step s = exec i { s with pending := rest }) ∧
  (∀ (s : State) (i : Instr) (rest : List Request),
    s.pending = encodeRequest i :: rest → step s = exec i { s with pending := rest }) ∧
  (∀ s : State, s.pending = [] → step s = .next s) ∧
  ∀ (s : State) (w : Nat), w < 256 →
    ∃ i, decodeTableWord 8 w = some i ∧ step (s.withFetchWord 8 w) = exec i s
end

