-- ==== Sys2Proof/Laws/State.lean ====
section
/-! SUPPORT. What each update of the state and of a block leaves in each field. -/

namespace Sys2Proof.Machine

/-! ### The state -/

@[simp] theorem deliver_fbCapacity (r : Result) (s : State) : (s.deliver r).fbCapacity = s.fbCapacity := rfl
@[simp] theorem deliver_block (r : Result) (s : State) : (s.deliver r).block = s.block := rfl
@[simp] theorem deliver_pending (r : Result) (s : State) : (s.deliver r).pending = s.pending := rfl
@[simp] theorem deliver_delivered (r : Result) (s : State) : (s.deliver r).delivered = r :: s.delivered := rfl

@[simp] theorem setBlock_fbCapacity (b : Block) (s : State) : (s.setBlock b).fbCapacity = s.fbCapacity := rfl
@[simp] theorem setBlock_block (b : Block) (s : State) : (s.setBlock b).block = some b := rfl
@[simp] theorem setBlock_pending (b : Block) (s : State) : (s.setBlock b).pending = s.pending := rfl
@[simp] theorem setBlock_delivered (b : Block) (s : State) : (s.setBlock b).delivered = s.delivered := rfl

@[simp] theorem withFetchWord_fbCapacity (s : State) (n w : Nat) :
    (s.withFetchWord n w).fbCapacity = s.fbCapacity := rfl
@[simp] theorem withFetchWord_block (s : State) (n w : Nat) : (s.withFetchWord n w).block = s.block := rfl
@[simp] theorem withFetchWord_pending (s : State) (n w : Nat) :
    (s.withFetchWord n w).pending = .sample (BitVec.ofNat 8 w) :: s.pending := rfl
@[simp] theorem withFetchWord_delivered (s : State) (n w : Nat) :
    (s.withFetchWord n w).delivered = s.delivered := rfl

/-! ### A new block (70_reset_and_hazards.md R103) -/

@[simp] theorem freshBlock_cfg (c : Cfg) : (freshBlock c).cfg = c := rfl
@[simp] theorem freshBlock_row (c : Cfg) : (freshBlock c).row = -1 := rfl
@[simp] theorem freshBlock_col (c : Cfg) : (freshBlock c).col = 0 := rfl
@[simp] theorem freshBlock_cursor (c : Cfg) : (freshBlock c).cursor = 0 := rfl
@[simp] theorem freshBlock_prev (c : Cfg) : (freshBlock c).prev = 0#8 := rfl
@[simp] theorem freshBlock_fb (c : Cfg) : (freshBlock c).fb = [] := rfl

/-! ### The steps of one ADVANCE -/

@[simp] theorem storeSample_cfg (s : Byte) (b : Block) : (storeSample s b).cfg = b.cfg := rfl
@[simp] theorem storeSample_row (s : Byte) (b : Block) : (storeSample s b).row = b.row := rfl
@[simp] theorem storeSample_col (s : Byte) (b : Block) : (storeSample s b).col = b.col := rfl
@[simp] theorem storeSample_cursor (s : Byte) (b : Block) : (storeSample s b).cursor = b.cursor := rfl
@[simp] theorem storeSample_prev (s : Byte) (b : Block) : (storeSample s b).prev = s := rfl
@[simp] theorem storeSample_fb (s : Byte) (b : Block) : (storeSample s b).fb = b.fb := rfl

@[simp] theorem advanceCol_cfg (b : Block) : (advanceCol b).cfg = b.cfg := rfl
@[simp] theorem advanceCol_row (b : Block) : (advanceCol b).row = b.row := rfl
@[simp] theorem advanceCol_col (b : Block) : (advanceCol b).col = b.col + 4 := rfl
@[simp] theorem advanceCol_cursor (b : Block) : (advanceCol b).cursor = b.cursor := rfl
@[simp] theorem advanceCol_prev (b : Block) : (advanceCol b).prev = b.prev := rfl
@[simp] theorem advanceCol_fb (b : Block) : (advanceCol b).fb = b.fb := rfl

@[simp] theorem afterSync_cfg (o : Sample) (b : Block) : (afterSync o b).cfg = b.cfg := by
  cases hv : vsFall (fall b.prev o.byte) <;> cases hh : hsFall (fall b.prev o.byte) <;>
    simp [afterSync, verticalReset, horizontalReset, hv, hh]

@[simp] theorem afterSync_row (o : Sample) (b : Block) :
    (afterSync o b).row = (if vsFall (fall b.prev o.byte) then -1 else b.row) +
      (if hsFall (fall b.prev o.byte) then 1 else 0) := by
  cases hv : vsFall (fall b.prev o.byte) <;> cases hh : hsFall (fall b.prev o.byte) <;>
    simp [afterSync, verticalReset, horizontalReset, hv, hh]

@[simp] theorem afterSync_col (o : Sample) (b : Block) :
    (afterSync o b).col = if hsFall (fall b.prev o.byte) then 0 else b.col := by
  cases hv : vsFall (fall b.prev o.byte) <;> cases hh : hsFall (fall b.prev o.byte) <;>
    simp [afterSync, verticalReset, horizontalReset, hv, hh]

@[simp] theorem afterSync_cursor (o : Sample) (b : Block) :
    (afterSync o b).cursor = if vsFall (fall b.prev o.byte) then 0 else b.cursor := by
  cases hv : vsFall (fall b.prev o.byte) <;> cases hh : hsFall (fall b.prev o.byte) <;>
    simp [afterSync, verticalReset, horizontalReset, hv, hh]

@[simp] theorem afterSync_prev (o : Sample) (b : Block) : (afterSync o b).prev = o.byte := rfl

@[simp] theorem afterSync_fb (o : Sample) (b : Block) : (afterSync o b).fb = b.fb := by
  cases hv : vsFall (fall b.prev o.byte) <;> cases hh : hsFall (fall b.prev o.byte) <;>
    simp [afterSync, verticalReset, horizontalReset, hv, hh]

end Sys2Proof.Machine
end

