-- ==== Sys2Proof/Laws/Memory.lean ====
section
/-! SUPPORT. The laws of the byte memory: reads after writes, the canonical form, and which cells a write can leave. -/

namespace Sys2Proof.Machine

@[simp] theorem read_nil (k : Nat) : Memory.read [] k = unlistedByte k := rfl

/-- A cell of a memory in canonical form lies above the head's offset. -/
theorem Memory.wf_cons {a : Nat} {v : Byte} {m : Memory} :
    Memory.wf ((a, v) :: m) = true ↔
      v ≠ unlistedByte a ∧ (∀ c ∈ m, a < c.1) ∧ Memory.wf m = true := by
  simp [Memory.wf, and_assoc]

/-- An offset that no cell lists reads as the reset image. -/
theorem read_unlisted {m : Memory} {k : Nat} (h : ∀ c ∈ m, c.1 ≠ k) : m.read k = unlistedByte k := by
  induction m with
  | nil => rfl
  | cons c m ih =>
    simp only [List.mem_cons, forall_eq_or_imp] at h
    simp [Memory.read, h.1, ih h.2]

theorem read_write_ne {m : Memory} {j k : Nat} {v : Byte} (h : j ≠ k) :
    (m.write k v).read j = m.read j := by
  induction m with
  | nil =>
    simp only [Memory.write]
    split <;> simp [Memory.read, Ne.symm h]
  | cons c m ih =>
    obtain ⟨a, w⟩ := c
    simp only [Memory.write]
    split_ifs with h1 h2 h3 h4
    · rfl
    · simp [Memory.read, Ne.symm h]
    · subst h3; simp [Memory.read, Ne.symm h]
    · subst h3; simp [Memory.read, Ne.symm h]
    · simp [Memory.read, ih]

theorem read_write_self {m : Memory} {k : Nat} {v : Byte} (h : m.wf = true) : (m.write k v).read k = v := by
  induction m with
  | nil =>
    simp only [Memory.write]
    split <;> simp_all [Memory.read]
  | cons c m ih =>
    obtain ⟨a, w⟩ := c
    obtain ⟨_, ha, hm⟩ := Memory.wf_cons.1 h
    simp only [Memory.write]
    split_ifs with h1 h2 h3 h4
    · rw [read_unlisted, h2]
      intro c hc
      rcases List.mem_cons.1 hc with rfl | hc
      · exact Nat.ne_of_gt h1
      · exact Nat.ne_of_gt (h1.trans (ha c hc))
    · simp [Memory.read]
    · subst h3
      rw [read_unlisted fun c hc => Nat.ne_of_gt (ha c hc), h4]
    · simp [Memory.read]
    · simp [Memory.read, Ne.symm h3, ih hm]

/-- One byte read after one byte written. -/
theorem read_write {m : Memory} {j k : Nat} {v : Byte} (h : m.wf = true) :
    (m.write k v).read j = if j = k then v else m.read j := by
  split
  · subst j; exact read_write_self h
  · exact read_write_ne ‹_›

/-- A write leaves a cell it wrote, at its offset and with its value, or a cell that stood before. -/
theorem mem_write {m : Memory} {k : Nat} {v : Byte} {c : Host.Cell} (h : c ∈ m.write k v) :
    (c = (k, v) ∧ v ≠ unlistedByte k) ∨ c ∈ m := by
  induction m with
  | nil =>
    simp only [Memory.write] at h
    split at h <;> simp_all
  | cons d m ih =>
    obtain ⟨a, w⟩ := d
    simp only [Memory.write] at h
    split_ifs at h with h1 h2 h3 h4
    · exact .inr h
    · rcases List.mem_cons.1 h with rfl | h
      · exact .inl ⟨rfl, h2⟩
      · exact .inr h
    · exact .inr (List.mem_cons_of_mem _ h)
    · rcases List.mem_cons.1 h with rfl | h
      · exact .inl ⟨rfl, h4⟩
      · exact .inr (List.mem_cons_of_mem _ h)
    · rcases List.mem_cons.1 h with rfl | h
      · exact .inr List.mem_cons_self
      · exact (ih h).imp_right (List.mem_cons_of_mem _)

/-- A write keeps the canonical form. -/
theorem write_wf {m : Memory} {k : Nat} {v : Byte} (h : m.wf = true) : (m.write k v).wf = true := by
  induction m with
  | nil =>
    simp only [Memory.write]
    split
    · rfl
    · simpa [Memory.wf] using ‹¬_›
  | cons c m ih =>
    obtain ⟨a, w⟩ := c
    obtain ⟨hw, ha, hm⟩ := Memory.wf_cons.1 h
    simp only [Memory.write]
    split_ifs with h1 h2 h3 h4
    · exact h
    · refine Memory.wf_cons.2 ⟨h2, ?_, h⟩
      intro c hc
      rcases List.mem_cons.1 hc with rfl | hc
      · exact h1
      · exact h1.trans (ha c hc)
    · exact hm
    · subst h3; exact Memory.wf_cons.2 ⟨h4, ha, hm⟩
    · refine Memory.wf_cons.2 ⟨hw, ?_, ih hm⟩
      intro c hc
      rcases mem_write hc with ⟨rfl, _⟩ | hc
      · change a < k; omega
      · exact ha c hc

/-- The reset state's memory has the canonical form. -/
theorem reset_fb_wf {b : Block} (h : State.reset.block = some b) : b.fb.wf = true := by
  obtain rfl := Option.some.inj h
  rfl

/-! ### Byte strings -/

/-- Bytes written read back at their offsets, and every other offset reads as before. -/
theorem read_writeBytes {bs : Bytes} {m : Memory} {off k : Nat} (h : m.wf = true) :
    (m.writeBytes off bs).read k = if off ≤ k then bs.getD (k - off) (m.read k) else m.read k := by
  induction bs generalizing m off with
  | nil => simp [Memory.writeBytes]
  | cons b bs ih =>
    rw [Memory.writeBytes, ih (write_wf h), read_write h]
    rcases Nat.lt_trichotomy k off with hk | rfl | hk
    · rw [if_neg (by omega), if_neg (by omega), if_neg (by omega)]
    · simp
    · obtain ⟨d, rfl⟩ : ∃ d, k = off + 1 + d := ⟨k - off - 1, by omega⟩
      have h1 : off + 1 + d - (off + 1) = d := by omega
      have h2 : off + 1 + d - off = d + 1 := by omega
      have h3 : off + 1 ≤ off + 1 + d := by omega
      have h4 : off ≤ off + 1 + d := by omega
      have h5 : off + 1 + d ≠ off := by omega
      rw [if_pos h3, if_pos h4, if_neg h5, h1, h2, List.getD_cons_succ]

/-- An offset outside the bytes written reads as before, whatever the form of the memory. -/
theorem read_writeBytes_outside {bs : Bytes} {m : Memory} {off k : Nat} (h : k < off ∨ off + bs.length ≤ k) :
    (m.writeBytes off bs).read k = m.read k := by
  induction bs generalizing m off with
  | nil => rfl
  | cons b bs ih =>
    rw [List.length_cons] at h
    rw [Memory.writeBytes, ih (by omega), read_write_ne (by omega)]

theorem writeBytes_wf {bs : Bytes} {m : Memory} {off : Nat} (h : m.wf = true) :
    (m.writeBytes off bs).wf = true := by
  induction bs generalizing m off with
  | nil => exact h
  | cons b bs ih => exact ih (write_wf h)

/-- A byte-string write leaves a cell for one of its own bytes, or a cell that stood before. -/
theorem mem_writeBytes {bs : Bytes} {m : Memory} {off : Nat} {c : Host.Cell} (h : c ∈ m.writeBytes off bs) :
    (off ≤ c.1 ∧ bs[c.1 - off]? = some c.2 ∧ c.2 ≠ unlistedByte c.1) ∨ c ∈ m := by
  induction bs generalizing m off with
  | nil => exact .inr h
  | cons b bs ih =>
    rcases ih h with ⟨h1, h2, h3⟩ | h
    · refine .inl ⟨by omega, ?_, h3⟩
      rw [show c.1 - off = (c.1 - (off + 1)) + 1 by omega, List.getElem?_cons_succ, h2]
    · rcases mem_write h with ⟨rfl, hne⟩ | h
      · exact .inl ⟨le_refl _, by simp, hne⟩
      · exact .inr h

/-! ### One paint (40_advance.md R75) -/

theorem paintGroup_eq (m : Memory) (cursor : Nat) (p : Bytes) :
    paintGroup m cursor p =
      (((m.writeBytes cursor p).writeBytes (cursor + 4) p).writeBytes (cursor + 8) p).writeBytes (cursor + 12) p := rfl

theorem paintGroup_wf {m : Memory} {cursor : Nat} {p : Bytes} (h : m.wf = true) :
    (paintGroup m cursor p).wf = true := by
  rw [paintGroup_eq]
  exact writeBytes_wf (writeBytes_wf (writeBytes_wf (writeBytes_wf h)))

/-- A paint writes the pixel's four bytes four times over from `cursor` on, and no other byte. -/
theorem read_paintGroup {m : Memory} {cursor k : Nat} {p : Bytes} (h : m.wf = true) (hp : p.length = 4) :
    (paintGroup m cursor p).read k =
      if cursor ≤ k ∧ k < cursor + 16 then p.getD ((k - cursor) % 4) 0 else m.read k := by
  obtain ⟨a, b, c, d, rfl⟩ : ∃ a b c d, p = [a, b, c, d] := by
    match p, hp with
    | [a, b, c, d], _ => exact ⟨a, b, c, d, rfl⟩
  have h1 := writeBytes_wf (bs := [a, b, c, d]) (off := cursor) h
  have h2 := writeBytes_wf (bs := [a, b, c, d]) (off := cursor + 4) h1
  have h3 := writeBytes_wf (bs := [a, b, c, d]) (off := cursor + 8) h2
  rw [paintGroup_eq, read_writeBytes h3, read_writeBytes h2, read_writeBytes h1, read_writeBytes h]
  by_cases hk : cursor ≤ k
  · obtain ⟨e, rfl⟩ : ∃ e, k = cursor + e := ⟨k - cursor, by omega⟩
    by_cases he : e < 16
    · interval_cases e <;> simp [Nat.add_sub_add_left]
    · have out : ∀ n, 4 ≤ n → ∀ x : Byte, [a, b, c, d].getD n x = x := fun n hn x => by simp [hn]
      rw [if_pos (by omega), if_pos (by omega), if_pos (by omega), if_pos (by omega), if_neg (by omega),
        out _ (by omega), out _ (by omega), out _ (by omega), out _ (by omega)]
  · rw [if_neg (by omega), if_neg (by omega), if_neg (by omega), if_neg (by omega), if_neg (by omega)]

/-- A paint leaves every byte outside its 16 as it was, whatever the form of the memory. -/
theorem read_paintGroup_outside {m : Memory} {cursor k : Nat} {p : Bytes} (hp : p.length = 4)
    (hk : ¬ (cursor ≤ k ∧ k < cursor + 16)) : (paintGroup m cursor p).read k = m.read k := by
  rw [paintGroup_eq, read_writeBytes_outside (by omega), read_writeBytes_outside (by omega),
    read_writeBytes_outside (by omega), read_writeBytes_outside (by omega)]

/-- A paint leaves a cell in its own 16 bytes that holds a byte of the pixel, or a cell that stood before. -/
theorem mem_paintGroup {m : Memory} {cursor : Nat} {p : Bytes} {c : Host.Cell} (hp : p.length = 4)
    (h : c ∈ paintGroup m cursor p) :
    (cursor ≤ c.1 ∧ c.1 < cursor + 16 ∧ p[(c.1 - cursor) % 4]? = some c.2 ∧ c.2 ≠ unlistedByte c.1) ∨ c ∈ m := by
  rw [paintGroup_eq] at h
  have inside : ∀ i, i < 4 →
      (cursor + 4 * i ≤ c.1 ∧ p[c.1 - (cursor + 4 * i)]? = some c.2 ∧ c.2 ≠ unlistedByte c.1) →
      cursor ≤ c.1 ∧ c.1 < cursor + 16 ∧ p[(c.1 - cursor) % 4]? = some c.2 ∧ c.2 ≠ unlistedByte c.1 := by
    rintro i hi ⟨h1, h2, h3⟩
    have hlt : c.1 - (cursor + 4 * i) < 4 := by
      by_contra hge
      rw [List.getElem?_eq_none (by omega)] at h2
      exact absurd h2 (by simp)
    refine ⟨by omega, by omega, ?_, h3⟩
    rwa [show (c.1 - cursor) % 4 = c.1 - (cursor + 4 * i) by omega]
  rcases mem_writeBytes h with h | h
  · exact .inl (inside 3 (by omega) h)
  rcases mem_writeBytes h with h | h
  · exact .inl (inside 2 (by omega) h)
  rcases mem_writeBytes h with h | h
  · exact .inl (inside 1 (by omega) h)
  rcases mem_writeBytes h with h | h
  · exact .inl (inside 0 (by omega) h)
  · exact .inr h

@[simp] theorem pixel_length (o : Sample) : o.pixel.length = 4 := rfl

end Sys2Proof.Machine
end

