-- ==== Sys2Proof/Laws/Ops.lean ====
section
/-! SUPPORT. What each shared operation and each meaning can do, said once. -/

namespace Sys2Proof.Machine

/-! ### Samples and their edges -/

/-- Decoding a sample's own byte gives the sample back, field by field (30_encoding.md R51, R60). -/
theorem decodeSample_byte (o : Sample) : decodeSample o.byte = o := by
  obtain ⟨v, h, b, g, r⟩ := o
  revert v h b g r
  decide

/-- A byte is the byte of the sample it decodes to. -/
theorem byte_decodeSample (s : Byte) : (decodeSample s).byte = s := by
  revert s
  decide

/-- Bit 7 of a sample's byte is V (30_encoding.md R50). -/
@[simp] theorem byte_bit7 (o : Sample) : o.byte[7] = o.v := congrArg Sample.v (decodeSample_byte o)

/-- Bit 6 of a sample's byte is H (30_encoding.md R50). -/
@[simp] theorem byte_bit6 (o : Sample) : o.byte[6] = o.h := congrArg Sample.h (decodeSample_byte o)

/-- A vertical-sync edge: bit 7 was 1 and V is 0 (40_advance.md R63). -/
theorem vsFall_byte (prev : Byte) (o : Sample) : vsFall (fall prev o.byte) = (prev.getLsbD 7 && !o.v) := by
  simp [vsFall, fall]

/-- A horizontal-sync edge: bit 6 was 1 and H is 0 (40_advance.md R63). -/
theorem hsFall_byte (prev : Byte) (o : Sample) : hsFall (fall prev o.byte) = (prev.getLsbD 6 && !o.h) := by
  simp [hsFall, fall]

/-! ### ADVANCE -/

/-- The paint step with its three ends (40_advance.md R73, R75; 60_exceptions.md R92). -/
theorem paint_ok {o : Sample} {b p : Block} (h : paint o b = .ok p) :
    (visible b.cfg b.row b.col = true ∧ b.cursor + 16 ≤ b.cfg.fbSize ∧
      p = { b with fb := paintGroup b.fb b.cursor o.pixel, cursor := b.cursor + 16 }) ∨
    (visible b.cfg b.row b.col = false ∧ p = b) := by
  unfold paint at h
  split_ifs at h with hv hc
  · refine .inl ⟨hv, by simpa [cursorStride] using hc, ?_⟩
    exact (Except.ok.inj h).symm
  · exact .inr ⟨by simpa using hv, (Except.ok.inj h).symm⟩

theorem paint_visible {o : Sample} {b : Block} (hv : visible b.cfg b.row b.col = true)
    (hc : b.cursor + 16 ≤ b.cfg.fbSize) :
    paint o b = .ok { b with fb := paintGroup b.fb b.cursor o.pixel, cursor := b.cursor + 16 } := by
  simp [paint, hv, cursorStride, hc]

theorem paint_blank {o : Sample} {b : Block} (hv : visible b.cfg b.row b.col = false) : paint o b = .ok b := by
  simp [paint, hv]

theorem paint_beyond {o : Sample} {b : Block} (hv : visible b.cfg b.row b.col = true)
    (hc : b.cfg.fbSize < b.cursor + 16) : paint o b = .error (.paintOutOfBounds b.cursor) := by
  have h : b.cursor + cursorStride > b.cfg.fbSize := hc
  rw [paint, if_pos hv, if_pos h]

theorem paint_error {o : Sample} {b : Block} {e : Fault} (h : paint o b = .error e) :
    visible b.cfg b.row b.col = true ∧ b.cfg.fbSize < b.cursor + 16 ∧ e = .paintOutOfBounds b.cursor := by
  unfold paint at h
  split_ifs at h with hv hc
  exact ⟨hv, hc, (Except.error.inj h).symm⟩

/-- A tick of a block ends with the painted block, `col` advanced and the start-of-tick commit (40_advance.md R61). -/
theorem advanceBlock_ok {o : Sample} {b b' : Block} {c : Option Bytes} (h : advanceBlock o b = .ok (b', c)) :
    ∃ p, paint o (afterSync o b) = .ok p ∧ b' = advanceCol p ∧ c = frameCommit (fall b.prev o.byte) b := by
  unfold advanceBlock at h
  split at h
  · exact absurd h (by simp)
  · obtain ⟨rfl, rfl⟩ := Prod.mk.inj (Except.ok.inj h)
    exact ⟨_, ‹_›, rfl, rfl⟩

theorem advanceBlock_error {o : Sample} {b : Block} {e : Fault} (h : advanceBlock o b = .error e) :
    paint o (afterSync o b) = .error e := by
  unfold advanceBlock at h
  split at h
  · rw [‹paint _ _ = _›, Except.error.inj h]
  · exact absurd h (by simp)

/-- Everything an ADVANCE that goes on can do. -/
theorem execAdvance_next {o : Sample} {s t : State} (h : execAdvance o s = .next t) :
    ∃ b p, s.block = some b ∧ paint o (afterSync o b) = .ok p ∧
      t = (s.setBlock (advanceCol p)).deliver (.tick (frameCommit (fall b.prev o.byte) b)) := by
  unfold execAdvance at h
  split at h
  · exact absurd h (by simp)
  · next b hb =>
    split at h
    · exact absurd h (by simp)
    · next hadv =>
      obtain ⟨p, hp, rfl, rfl⟩ := advanceBlock_ok hadv
      exact ⟨b, p, hb, hp, (Host.Outcome.next.inj h).symm⟩

/-- An ADVANCE of a block whose paint step succeeds goes on. -/
theorem execAdvance_of_paint {o : Sample} {s : State} {b p : Block} (hb : s.block = some b)
    (hp : paint o (afterSync o b) = .ok p) :
    execAdvance o s = .next ((s.setBlock (advanceCol p)).deliver (.tick (frameCommit (fall b.prev o.byte) b))) := by
  simp [execAdvance, hb, advanceBlock, hp]

/-- An ADVANCE of a block whose paint step faults stops with that fault. -/
theorem execAdvance_of_error {o : Sample} {s : State} {b : Block} {e : Fault} (hb : s.block = some b)
    (hp : paint o (afterSync o b) = .error e) : execAdvance o s = .fault e := by
  simp [execAdvance, hb, advanceBlock, hp]

/-! ### CONSTRUCT, THUMBNAIL and the step -/

/-- Everything a CONSTRUCT can do (70_reset_and_hazards.md R103). -/
theorem execConstruct_cases (c : Cfg) (s : State) :
    (configAccepted s.fbCapacity c = true ∧
      execConstruct c s = .next ((s.setBlock (freshBlock c)).deliver .constructed)) ∨
    (configAccepted s.fbCapacity c = false ∧ execConstruct c s = .next (s.deliver .configError)) := by
  unfold execConstruct raiseError
  cases h : configAccepted s.fbCapacity c <;> simp

/-- Everything a THUMBNAIL can do while a block stands (45_thumbnail.md R80). -/
theorem execThumbnail_cases {src : Bytes} {sw sh : Nat} {s : State} {b : Block} (hb : s.block = some b) :
    (dimensionsAccepted src sw sh = true ∧
      execThumbnail src sw sh s = .next (s.deliver (.thumbnail (sampleThumbnail src sw)))) ∨
    (dimensionsAccepted src sw sh = false ∧ execThumbnail src sw sh s = .next (s.deliver .dimensionError)) := by
  unfold execThumbnail raiseError
  rw [hb]
  cases h : dimensionsAccepted src sw sh <;> simp

@[simp] theorem exec_advance (o : Sample) (s : State) : exec (.advance o) s = execAdvance o s := rfl
@[simp] theorem exec_construct (c : Cfg) (s : State) : exec (.construct c) s = execConstruct c s := rfl
@[simp] theorem exec_thumbnail (src : Bytes) (sw sh : Nat) (s : State) :
    exec (.thumbnail src sw sh) s = execThumbnail src sw sh s := rfl

/-- The three ways a step ends: idle, an operation, or a request refused at the boundary. -/
theorem step_cases (s : State) :
    (s.pending = [] ∧ step s = .next s) ∨
    (∃ r rest i, s.pending = r :: rest ∧ decodeRequest r = .ok i ∧ step s = exec i { s with pending := rest }) ∨
    (∃ r rest, s.pending = r :: rest ∧ decodeRequest r = .error .negativeField ∧
      step s = .next (({ s with pending := rest } : State).deliver .configError)) := by
  unfold step
  cases hp : s.pending with
  | nil => exact .inl ⟨rfl, rfl⟩
  | cons r rest =>
    cases hd : decodeRequest r with
    | ok i => exact .inr (.inl ⟨r, rest, i, rfl, hd, by simp [hd]⟩)
    | error e => cases e; exact .inr (.inr ⟨r, rest, rfl, hd, by simp [hd, rejectRequest, raiseError]⟩)

/-- The window test in the words of 10_state.md R25. -/
theorem visible_iff {c : Cfg} {row : Int} {col : Nat} :
    visible c row col = true ↔
      (c.minRow : Int) ≤ row ∧ row < c.maxRow ∧ c.minCol ≤ col ∧ col < c.maxCol := by
  simp [visible, and_assoc]

/-- What CONSTRUCT checks is what WellFormed.lean says of R88. -/
theorem configAccepted_eq_wf (capacity : Option Nat) (c : Cfg) : configAccepted capacity c = c.wf capacity := by
  unfold configAccepted Cfg.wf fitsCapacity
  split_ifs with h1 h2
  · rcases h1 with h1 | h1 <;> simp [h1]
  · have : c.hv % 4 ≠ 0 := h2
    simp [this]
  · have hm : c.hv % 4 = 0 := by simpa [pixelsPerTick] using h2
    obtain ⟨hh, hv⟩ := not_or.1 h1
    cases capacity with
    | none => simp [bne_iff_ne.2 hh, bne_iff_ne.2 hv, hm]
    | some n => simp only [bne_iff_ne.2 hh, bne_iff_ne.2 hv, hm, beq_self_eq_true, Bool.true_and]; rfl

/-- What THUMBNAIL checks is what WellFormed.lean says of R81. -/
theorem dimensionsAccepted_eq_wf (src : Bytes) (sw sh : Nat) :
    dimensionsAccepted src sw sh = thumbnailWf src sw sh := by
  unfold dimensionsAccepted thumbnailWf srcMinW srcMinH bytesPerPixel
  split_ifs with h
  · rcases h with h | h | h
    · simp [Nat.not_le.2 h]
    · simp [Nat.not_le.2 h]
    · simp [h]
  · obtain ⟨h1, h2⟩ := not_or.1 h
    obtain ⟨h2, h3⟩ := not_or.1 h2
    simp [Nat.not_lt.1 h1, Nat.not_lt.1 h2, not_not.1 h3]

/-- The configurations CONSTRUCT accepts, clause by clause (60_exceptions.md R88). -/
theorem cfg_wf_iff {capacity : Option Nat} {c : Cfg} :
    c.wf capacity = true ↔
      c.hv ≠ 0 ∧ c.vv ≠ 0 ∧ c.hv % 4 = 0 ∧ ∀ n, capacity = some n → c.hv * c.vv * 4 ≤ n := by
  unfold Cfg.wf
  cases capacity <;> simp [and_assoc]

/-- The sources THUMBNAIL accepts, clause by clause (45_thumbnail.md R81). -/
theorem dimensionsAccepted_iff {src : Bytes} {sw sh : Nat} :
    dimensionsAccepted src sw sh = true ↔ 640 ≤ sw ∧ 480 ≤ sh ∧ src.length = sw * sh * 4 := by
  rw [dimensionsAccepted_eq_wf]
  simp [thumbnailWf, and_assoc]

/-- `c0` is the smallest multiple of 4 that is `>= minCol` (20_memory.md R35). -/
theorem firstCol_spec (c : Cfg) : c.minCol ≤ c.firstCol ∧ c.firstCol < c.minCol + 4 ∧ c.firstCol % 4 = 0 := by
  simp only [Cfg.firstCol, colStride]
  omega

theorem copyFb_length (b : Block) : (copyFb b).length = b.cfg.fbSize := by simp [copyFb]

theorem copyFb_getElem? (b : Block) {k : Nat} (h : k < b.cfg.fbSize) : (copyFb b)[k]? = some (b.fb.read k) := by
  simp [copyFb, h]

end Sys2Proof.Machine
end

