-- ==== Sys2Proof/Laws/PerInstr.lean ====
section
/-! SUPPORT. The statements made of each operation as syntax, one lemma for each constructor of Instr. -/

namespace Sys2Proof.Laws.RequestRoundTrip

/-- The request that issues an operation decodes to it (30_encoding.md R56). -/
def Statement (i : Instr) : Prop := decodeRequest (encodeRequest i) = .ok i

theorem advance (o : Sample) : Statement (.advance o) := by
  simp [Statement, encodeRequest, decodeRequest, decode, Machine.decodeSample_byte]

theorem construct (c : Cfg) : Statement (.construct c) := by
  have h : ∀ n : Nat, ¬ (n : Int) < 0 := fun n => by omega
  simp [Statement, encodeRequest, decodeRequest, h]

theorem thumbnail (src : Bytes) (sw sh : Nat) : Statement (.thumbnail src sw sh) := rfl

end Sys2Proof.Laws.RequestRoundTrip
end

