-- ==== Sys2Proof/Tests/Slice0.lean ====
section
/-! SUPPORT. The model's own tests: the checks of WellFormed.lean, words of the encoding, one or two steps of each
operation against 95_test_vectors.md, and a witness for the hypotheses of each obligation. -/

namespace Sys2Proof.Tests

open Sys2Proof.Machine

/-! ### States the tests run on -/

/-- Configuration `h{2,2,4} v{1,1,2}` of 95_test_vectors.md §2.3. -/
def cfgCo : Cfg := { hbp := 2, hp := 2, hv := 4, vbp := 1, vp := 1, vv := 2 }

/-- Configuration `h{0,4,8} v{0,1,2}` of 95_test_vectors.md §2.4. -/
def cfgPa : Cfg := { hbp := 0, hp := 4, hv := 8, vbp := 0, vp := 1, vv := 2 }

/-- Configuration `h{0,0,4} v{0,0,1}` of 95_test_vectors.md T-FC-4 and program P4. -/
def cfgFc : Cfg := { hbp := 0, hp := 0, hv := 4, vbp := 0, vp := 0, vv := 1 }

/-- A state with this block and nothing issued or delivered. -/
def withBlock (b : Block) : State := { State.reset with block := some b }

/-- A block with an FB nobody has painted. -/
def blackBlock (c : Cfg) (row : Int) (col cursor : Nat) (prev : Byte) : Block :=
  { cfg := c, row := row, col := col, cursor := cursor, prev := prev, fb := [] }

/-- The block of T-PA-2, with a byte of the group that T-PA-1 painted before it. -/
def paintedBlock : Block :=
  { cfg := cfgPa, row := 1, col := 8, cursor := 16, prev := 0x1B, fb := [(0, 0xFF), (1, 0x55)] }

/-- The block an outcome leaves. -/
def blockOf (r : Host.Outcome State Fault Refusal) : Option Block :=
  match r with
  | .next t => t.block
  | .fault _ => none
  | .refused _ => none

/-- The newest result an outcome delivers. -/
def resultOf (r : Host.Outcome State Fault Refusal) : Option Result :=
  match r with
  | .next t => t.delivered.head?
  | .fault _ => none
  | .refused _ => none

/-! ### WellFormed (60_exceptions.md R88, 45_thumbnail.md R81) -/

theorem test_wf_construct_zero_hv : (Instr.construct { cfgCo with hv := 0 }).wf none = false := by decide
theorem test_wf_construct_zero_vv : (Instr.construct { cfgCo with vv := 0 }).wf none = false := by decide
theorem test_wf_construct_hv_not_groups : (Instr.construct { cfgCo with hv := 6 }).wf none = false := by decide
theorem test_wf_construct_capacity : (Instr.construct cfgFc).wf (some 15) = false := by decide
theorem test_wf_construct_accepted : (Instr.construct cfgFc).wf (some 16) = true := by decide
theorem test_wf_thumbnail_narrow : (Instr.thumbnail [] 639 480).wf none = false := by decide
theorem test_wf_thumbnail_low : (Instr.thumbnail [] 640 479).wf none = false := by decide
theorem test_wf_thumbnail_length : (Instr.thumbnail [] 640 480).wf none = false := by decide

/-! ### Decode: words written out bit by bit from 30_encoding.md R50, `VHBBGGRR` -/

theorem test_decode_vertical_low :
    decode 0b01111111 = .advance { v := false, h := true, b := 3, g := 3, r := 3 } := by decide
theorem test_decode_blue_two_green_one :
    decode 0b10100100 = .advance { v := true, h := false, b := 2, g := 1, r := 0 } := by decide
theorem test_encode_word :
    encode (.advance { v := true, h := false, b := 1, g := 2, r := 3 }) = some 0b10011011 := by decide
theorem test_decodeTableWord :
    decodeTableWord 8 0b01000000 = some (.advance { v := false, h := true, b := 0, g := 0, r := 0 }) := by decide
theorem test_decodeTableWord_sixteen_bits : decodeTableWord 16 0x40 = none := by decide
theorem test_decodeBytes_empty : decodeBytes [] = .error .noSample := by rfl
/-- CONSTRUCT and THUMBNAIL have no word (R56). -/
theorem test_encode_construct : encode (.construct cfgCo) = none := by decide

/-- The stream notation of R60: `IDLE VS IDLE(3F) HS`. -/
theorem test_sampleStream_notation :
    sampleStream [idleByte 0, vsByte, idleByte 0x3F, hsByte] =
      [.sample 0xC0, .sample 0x40, .sample 0xFF, .sample 0x80] := by decide

/-! ### ADVANCE -/

/-- 95_test_vectors.md T-PA-2: a sample whose sync bits are 0 paints like any other. -/
theorem test_advance_paints_with_low_sync :
    (blockOf (exec (decode 0x1B) (withBlock (blackBlock cfgPa 1 8 16 0x1B)))).map
        (fun b => ((b.row, b.col, b.cursor), (copyFb b).drop 12 |>.take 24)) =
      some ((1, 12, 32), [0, 0, 0, 0xFF, 0xFF, 0xAA, 0x55, 0xFF, 0xFF, 0xAA, 0x55, 0xFF, 0xFF, 0xAA, 0x55, 0xFF,
        0xFF, 0xAA, 0x55, 0xFF, 0, 0, 0, 0xFF]) := by decide

/-- 95_test_vectors.md T-FC-4 and P4: both edges in one tick, the commit taken before the paint. -/
theorem test_advance_both_edges_commit_then_paint :
    (blockOf (exec (decode 0x05) (withBlock (blackBlock cfgFc (-1) 4 0 0xC0)))).map
          (fun b => ((b.row, b.col, b.cursor, b.prev), (copyFb b).take 4)) =
        some ((0, 4, 16, 0x05), [0x55, 0x55, 0x00, 0xFF]) ∧
      resultOf (exec (decode 0x05) (withBlock (blackBlock cfgFc (-1) 4 0 0xC0))) =
        some (.tick (some [0, 0, 0, 0xFF, 0, 0, 0, 0xFF, 0, 0, 0, 0xFF, 0, 0, 0, 0xFF])) := by decide

/-! ### CONSTRUCT -/

/-- 95_test_vectors.md T-CN-1. -/
theorem test_construct_new_block :
    (blockOf (exec (.construct cfgCo) (withBlock paintedBlock))).map
          (fun b => [b.cfg.minCol, b.cfg.maxCol, b.cfg.minRow, b.cfg.maxRow, b.col, b.cursor, (copyFb b).length]) =
        some [4, 8, 2, 4, 0, 0, 32] ∧
      (blockOf (exec (.construct cfgCo) (withBlock paintedBlock))).map
          (fun b => (b.row, b.prev, (copyFb b).take 5)) =
        some (-1, 0x00, [0, 0, 0, 0xFF, 0]) := by decide

/-- 95_test_vectors.md T-CN-7: FB_CAPACITY = 15 refuses 16 bytes, and the old block stays (R106). -/
theorem test_construct_over_capacity :
    blockOf (exec (.construct cfgFc) { withBlock paintedBlock with fbCapacity := some 15 }) = some paintedBlock ∧
      resultOf (exec (.construct cfgFc) { withBlock paintedBlock with fbCapacity := some 15 }) =
        some .configError := by decide

/-! ### THUMBNAIL -/

/-- 95_test_vectors.md T-TH-1g and T-TH-3: where source and destination pixels lie. -/
theorem test_thumbnail_offsets :
    pixelOffset 640 (4 * 159) (4 * 119) = 1221104 ∧ pixelOffset 160 159 119 = 76796 ∧
      pixelOffset 1000 (4 * 1) (4 * 1) = 4 * (1000 * 4 + 4) := by decide

/-- 95_test_vectors.md T-TH-4 and P5: too small a source gives DimensionError. -/
theorem test_thumbnail_too_small :
    resultOf (exec (.thumbnail (copyFb paintedBlock) 8 2) (withBlock paintedBlock)) = some .dimensionError ∧
      blockOf (exec (.thumbnail (copyFb paintedBlock) 8 2) (withBlock paintedBlock)) = some paintedBlock := by decide

/-! ### The step -/

/-- 95_test_vectors.md P1 tick 0, from reset. -/
theorem test_step_first_tick :
    (blockOf (step (State.reset.withFetchWord 8 0xC0))).map (fun b => (b.row, b.col, b.cursor, b.prev)) =
      some (-1, 4, 0, 0xC0) := by decide

/-! ### Witnesses: a concrete state and operands that meet the hypotheses of each obligation together -/

theorem paintedBlock_inv : paintedBlock.Inv none :=
  ⟨by decide, by decide, by decide, by decide, by decide, by decide, by decide⟩

theorem withBlock_inv {b : Block} (h : b.Inv none) : (withBlock b).Inv :=
  fun _ hb => Option.some.inj hb ▸ h

theorem witness_EveryByteIsAnAdvanceThatGoesOn :
    (255 : Nat) < 256 ∧ (withBlock paintedBlock).block = some paintedBlock ∧ (withBlock paintedBlock).Inv :=
  ⟨by decide, rfl, withBlock_inv paintedBlock_inv⟩

theorem witness_DecodeOfEncodeIsTheOperation :
    encode (.advance { v := true, h := true, b := 2, g := 1, r := 3 }) = some 0xE7 := by decide

/-- 95_test_vectors.md T-ED-8, at the last bit. -/
theorem witness_FallIsTheBitsThatCleared :
    (7 : Nat) < 8 ∧ (0xAA : Byte).getLsbD 7 = true ∧ (0x55 : Byte).getLsbD 7 = false ∧
      (fall 0xAA 0x55).getLsbD 7 = true := by decide

/-- The last group of FB, and a tick just beyond the window's right edge with a full FB. -/
theorem witness_AdvanceCompletesAsThePseudocodeSays :
    (∃ b, (withBlock (blackBlock cfgPa 2 8 48 0xFF)).block = some b ∧ visible b.cfg b.row b.col = true ∧
        b.cursor + 16 ≤ b.cfg.fbSize) ∧
      ∃ b, (withBlock (blackBlock cfgPa 2 12 64 0xFF)).block = some b ∧ visible b.cfg b.row b.col = false :=
  ⟨⟨_, rfl, by decide, by decide⟩, ⟨_, rfl, by decide⟩⟩

/-- 95_test_vectors.md T-CO-1 to T-CO-4: no edge, each edge alone, and both. -/
theorem witness_SyncEdgesAloneMoveThePosition :
    (∃ t, exec (decode 0xC0) (withBlock (blackBlock cfgCo 5 100 32 0xC0)) = .next t ∧
        vsFall (fall 0xC0 0xC0) = false ∧ hsFall (fall 0xC0 0xC0) = false) ∧
      (∃ t, exec (decode 0x80) (withBlock (blackBlock cfgCo 5 100 32 0xC0)) = .next t ∧
        vsFall (fall 0xC0 0x80) = false ∧ hsFall (fall 0xC0 0x80) = true) ∧
      (∃ t, exec (decode 0x40) (withBlock (blackBlock cfgCo 5 100 32 0xC0)) = .next t ∧
        vsFall (fall 0xC0 0x40) = true ∧ hsFall (fall 0xC0 0x40) = false) ∧
      ∃ t, exec (decode 0x00) (withBlock (blackBlock cfgCo 5 100 32 0xC0)) = .next t ∧
        vsFall (fall 0xC0 0x00) = true ∧ hsFall (fall 0xC0 0x00) = true :=
  ⟨⟨_, rfl, by decide⟩, ⟨_, rfl, by decide⟩, ⟨_, rfl, by decide⟩, ⟨_, rfl, by decide⟩⟩

/-- 95_test_vectors.md P1, ticks 0 and 1. -/
theorem witness_TheNextTickComparesWithTheStoredSample :
    ∃ t u, exec (decode 0xC0) (withBlock (freshBlock cfgCo)) = .next t ∧ exec (decode 0x40) t = .next u :=
  ⟨_, _, rfl, rfl⟩

/-- The window's first and last painting position, and the ticks just beyond its right edge and above it. -/
theorem witness_AdvancePaintsExactlyInsideTheWindow :
    ((blackBlock cfgPa 1 4 0 0xA7).fb.wf = true ∧ visible cfgPa 1 4 = true ∧ 0 + 16 ≤ cfgPa.fbSize) ∧
      (visible cfgPa 2 11 = true ∧ 48 + 16 ≤ cfgPa.fbSize) ∧
      visible cfgPa 2 12 = false ∧ visible cfgPa 3 4 = false ∧ visible cfgPa 0 4 = false ∧
      visible cfgPa (-1) 4 = false := by decide

theorem witness_PaintBeyondFbFaultsWithItsCursor :
    visible cfgPa (afterSync (decodeSample 0xFF) (blackBlock cfgPa 2 8 64 0xFF)).row
          (afterSync (decodeSample 0xFF) (blackBlock cfgPa 2 8 64 0xFF)).col = true ∧
      cfgPa.fbSize < (afterSync (decodeSample 0xFF) (blackBlock cfgPa 2 8 64 0xFF)).cursor + 16 := by decide

/-- 95_test_vectors.md T-FC-1 and T-FC-2. -/
theorem witness_FrameCommitIsFbAtTheStartOfTheTick :
    (∃ t, exec (decode 0x40) (withBlock (blackBlock cfgCo 5 100 32 0xC0)) = .next t ∧
        (0xC0 : Byte).getLsbD 7 = true ∧ (decodeSample 0x40).v = false) ∧
      ∃ t, exec (decode 0x40) (withBlock (blackBlock cfgCo 5 100 32 0x40)) = .next t ∧
        ¬ ((0x40 : Byte).getLsbD 7 = true ∧ (decodeSample 0x40).v = false) :=
  ⟨⟨_, rfl, by decide⟩, ⟨_, rfl, by decide⟩⟩

/-- A window at the origin (program P4) and one away from it (T-CO-4). -/
theorem witness_BothEdgesInOneTickStartAFrame :
    (blackBlock cfgFc (-1) 4 0 0xC0).Inv none ∧ (blackBlock cfgCo 5 100 32 0xC0).Inv none ∧
      (0xC0 : Byte).getLsbD 7 = true ∧ (0xC0 : Byte).getLsbD 6 = true ∧
      (decodeSample 0x05).v = false ∧ (decodeSample 0x05).h = false :=
  ⟨⟨by decide, by decide, by decide, by decide, by decide, by decide, by decide⟩,
    ⟨by decide, by decide, by decide, by decide, by decide, by decide, by decide⟩, by decide⟩

/-- A sample with both sync lines high and one with both low, of one colour, neither making an edge. -/
theorem witness_SyncLevelsActOnlyThroughTheirEdges :
    (decodeSample 0xDB).r = (decodeSample 0x1B).r ∧ (decodeSample 0xDB).g = (decodeSample 0x1B).g ∧
      (decodeSample 0xDB).b = (decodeSample 0x1B).b ∧
      ((0xFF : Byte).getLsbD 7 && !(decodeSample 0xDB).v) = ((0x1B : Byte).getLsbD 7 && !(decodeSample 0x1B).v) ∧
      ((0xFF : Byte).getLsbD 6 && !(decodeSample 0xDB).h) = ((0x1B : Byte).getLsbD 6 && !(decodeSample 0x1B).h) ∧
      blockOf (exec (decode 0xDB) (withBlock (blackBlock cfgPa 1 8 16 0xFF))) ≠ none := by decide

/-- A line that enters the window (row 0 to 1), and samples without an edge after its first. -/
theorem witness_LinePaintsEachGroupOnce :
    (blackBlock cfgPa 0 28 0 0xC1).Inv none ∧ vsFall (fall 0xC1 (decodeSample 0x81).byte) = false ∧
      hsFall (fall 0xC1 (decodeSample 0x81).byte) = true ∧
      noEdges (decodeSample 0x81).byte [decodeSample 0xC0, decodeSample 0xE7] = true ∧
      groupsInLine cfgPa 3 = 2 :=
  ⟨⟨by decide, by decide, by decide, by decide, by decide, by decide, by decide⟩, by decide⟩

/-- T-PA-2's tick, which paints, and the edge that ends a full window row. -/
theorem witness_FullLinesPaintARowMajorPicture :
    paintedBlock.Inv none ∧ paintedBlock.Aligned ∧ hsFall (fall 0x1B (decodeSample 0x1B).byte) = false ∧
      visible cfgPa (afterSync (decodeSample 0x1B) paintedBlock).row
        (afterSync (decodeSample 0x1B) paintedBlock).col = true ∧
      (blackBlock cfgPa 1 12 32 0xFF).Inv none ∧ (blackBlock cfgPa 1 12 32 0xFF).Aligned ∧
      hsFall (fall 0xFF (decodeSample 0x80).byte) = true ∧ cfgPa.maxCol ≤ 12 :=
  ⟨paintedBlock_inv, by unfold Block.Aligned; decide, by decide, by decide,
    ⟨by decide, by decide, by decide, by decide, by decide, by decide, by decide⟩,
    by unfold Block.Aligned; decide, by decide, by decide⟩

theorem witness_SaturatingCountersGiveTheSameResults :
    (withBlock paintedBlock).block = some paintedBlock ∧ (cfgPa.maxRow : Int) ≤ 3 ∧ cfgPa.maxCol ≤ 12 ∧
      ∃ t, runOps [decode 0xC0, decode 0x80, decode 0xC0] (withBlock paintedBlock) = .next t :=
  ⟨rfl, by decide, by decide, ⟨_, rfl⟩⟩

/-- The smallest accepted framebuffer in exactly its capacity. -/
theorem witness_AdvanceIsTotalOnReachableStates :
    cfgFc.wf ({ State.reset with fbCapacity := some 16 } : State).fbCapacity = true := by decide

theorem witness_InvariantGivesRuleR31 :
    paintedBlock.Inv none ∧ (63 : Nat) < paintedBlock.cfg.fbSize ∧ 63 % 4 = 3 :=
  ⟨paintedBlock_inv, by decide, by decide⟩

theorem witness_EveryStepKeepsTheInvariant :
    ((withBlock paintedBlock).withFetchWord 8 0x1B).Inv ∧
      ∃ t, step ((withBlock paintedBlock).withFetchWord 8 0x1B) = .next t :=
  ⟨withBlock_inv paintedBlock_inv, ⟨_, rfl⟩⟩

theorem witness_ReachableBlocksMeetRuleR31 :
    cfgFc.wf (withBlock paintedBlock).fbCapacity = true ∧
      ∃ t, exec (.construct cfgFc) (withBlock paintedBlock) = .next t :=
  ⟨by decide, ⟨_, rfl⟩⟩

/-- A tick that paints, one that does not, and a CONSTRUCT that succeeds. -/
theorem witness_FbKeepsEveryByteThatIsNotPainted :
    (∃ t, exec (decode 0x1B) (withBlock paintedBlock) = .next t ∧ storesAt (decode 0x1B) paintedBlock = some 16 ∧
        ¬ (16 ≤ 15 ∧ 15 < 16 + 16) ∧ ¬ (16 ≤ 32 ∧ 32 < 16 + 16)) ∧
      (∃ t, exec (decode 0x40) (withBlock (blackBlock cfgCo 5 100 32 0xC0)) = .next t ∧
        storesAt (decode 0x40) (blackBlock cfgCo 5 100 32 0xC0) = none) ∧
      ∃ t, exec (.construct cfgFc) (withBlock paintedBlock) = .next t :=
  ⟨⟨_, rfl, by decide⟩, ⟨_, rfl, by decide⟩, ⟨_, rfl⟩⟩

theorem witness_OperationsLeaveTheRestAlone :
    (∃ t, exec (decode 0x1B) (withBlock paintedBlock) = .next t) ∧
      (∃ t, exec (.construct { cfgCo with hv := 6 }) (withBlock paintedBlock) = .next t ∧
        ({ cfgCo with hv := 6 } : Cfg).wf (withBlock paintedBlock).fbCapacity = false) ∧
      ∃ t, exec (.thumbnail [] 4 2) (withBlock paintedBlock) = .next t :=
  ⟨⟨_, rfl⟩, ⟨_, rfl, by decide⟩, ⟨_, rfl⟩⟩

theorem witness_CanonicalMemoriesThatReadAlikeAreEqual :
    Memory.wf [(0, 0xFF), (3, 0x01)] = true ∧
      Memory.wf (Memory.write (Memory.write [] 3 0x01) 0 0xFF) = true ∧
      ∀ k, Memory.read [(0, 0xFF), (3, 0x01)] k = Memory.read (Memory.write (Memory.write [] 3 0x01) 0 0xFF) k :=
  ⟨by decide, by decide, fun _ => rfl⟩

theorem witness_DeliveredResultsNeverChange :
    ∃ t : State, core.run 2 ((withBlock paintedBlock).withFetchWord 8 0x1B) = .next t := ⟨_, rfl⟩

theorem witness_RunsExecuteTheQueueInOrder :
    ({ withBlock paintedBlock with
        pending := [.sample 0x1B, .construct 0 0 4 0 0 1, .thumbnail [] 4 2] } : State).pending =
      [decode 0x1B, .construct cfgFc, .thumbnail [] 4 2].map encodeRequest ++ [] := by decide

/-- The smallest accepted source, and the last byte that its thumbnail reads and writes. -/
theorem witness_ThumbnailCopiesEveryFourthPixel :
    (withBlock paintedBlock).block = some paintedBlock ∧
      (List.replicate 1228800 (0xFF : Byte)).length = 640 * 480 * 4 ∧ (159 : Nat) < 160 ∧ (119 : Nat) < 120 ∧
      (3 : Nat) < 4 :=
  ⟨rfl, List.length_replicate, by decide⟩

/-- Each of the three causes by itself, at its boundary. -/
theorem witness_ThumbnailOfABadSourceGivesDimensionError :
    (withBlock paintedBlock).block = some paintedBlock ∧ 639 < 640 ∧ 479 < 480 ∧
      ([] : Bytes).length ≠ 640 * 480 * 4 :=
  ⟨rfl, by decide, by decide, by decide⟩

theorem witness_ThumbnailChangesNoDecoderState :
    (withBlock paintedBlock).block = some paintedBlock ∧
      (∃ u, exec (decode 0x1B) (withBlock paintedBlock) = .next u) ∧
      ∃ e, exec (decode 0xFF) (withBlock (blackBlock cfgPa 2 8 64 0xFF)) = .fault e :=
  ⟨rfl, ⟨_, rfl⟩, ⟨_, rfl⟩⟩

theorem witness_ThumbnailDependsOnItsOperandsAlone :
    (withBlock paintedBlock).block = some paintedBlock ∧
      (withBlock (freshBlock cfgCo)).block = some (freshBlock cfgCo) := ⟨rfl, rfl⟩

theorem witness_OwnThumbnailBeforeAnyCommitIsBlack :
    paintedBlock.cfg.width < 640 ∧
      640 ≤ (freshBlock { cfgFc with hv := 640, vv := 480 }).cfg.width ∧
      480 ≤ (freshBlock { cfgFc with hv := 640, vv := 480 }).cfg.height ∧
      latestCommit [.tick none, .constructed, .tick (some [])] = none := by decide

theorem witness_ConstructMakesANewBlock :
    cfgFc.hv ≠ 0 ∧ cfgFc.vv ≠ 0 ∧ cfgFc.hv % 4 = 0 ∧ ∀ n, (some 16 : Option Nat) = some n → cfgFc.hv * cfgFc.vv * 4 ≤ n :=
  ⟨by decide, by decide, by decide, fun n h => by obtain rfl := Option.some.inj h; decide⟩

/-- Each of the four causes by itself. -/
theorem witness_ConstructRefusesABadConfig :
    ({ cfgCo with hv := 0 } : Cfg).hv = 0 ∧ ({ cfgCo with vv := 0 } : Cfg).vv = 0 ∧
      ({ cfgCo with hv := 6 } : Cfg).hv % 4 ≠ 0 ∧
      ∃ n, (some 15 : Option Nat) = some n ∧ n < cfgFc.hv * cfgFc.vv * 4 :=
  ⟨by decide, by decide, by decide, 15, rfl, by decide⟩

theorem witness_NegativeConfigFieldGivesConfigError :
    ({ withBlock paintedBlock with pending := [.construct 2 2 4 1 (-1) 2] } : State).pending =
      .construct 2 2 4 1 (-1) 2 :: [] ∧ (-1 : Int) < 0 := by decide

theorem witness_ConstructLeavesOpaqueBlackAndTheInvariant :
    cfgFc.wf (some 16) = true ∧
      (∃ t, exec (.construct cfgFc) { withBlock paintedBlock with fbCapacity := some 16 } = .next t) ∧
      15 < cfgFc.hv * cfgFc.vv * 4 :=
  ⟨by decide, ⟨_, rfl⟩, by decide⟩

theorem witness_FirstTickAfterConstructFindsNoEdge :
    (withBlock (freshBlock cfgCo)).block = some (freshBlock cfgCo) := rfl

theorem witness_NoAdvanceOrThumbnailWithoutABlock :
    ({ State.reset with block := none } : State).block = none := rfl

theorem witness_StepRunsTheDecodedOperation :
    encode (decode 0xE7) = some 0xE7 ∧
      ((withBlock paintedBlock).withFetchWord 8 0xE7).pending = .sample 0xE7 :: [] ∧
      ({ withBlock paintedBlock with pending := [.construct 0 0 4 0 0 1] } : State).pending =
        encodeRequest (.construct cfgFc) :: [] ∧
      State.reset.pending = [] ∧ (255 : Nat) < 256 := by decide

end Sys2Proof.Tests
end

/-! ### Encoding (30_encoding.md): the proofs

The general facts come first: a sample's bits and channels as numbers, the invariant up to the paint step, and what of
an ADVANCE depends on `prev`. Each theorem that settles an obligation is put together from them. -/

namespace Sys2Proof.Machine

/-! #### Bit slices and channels as numbers -/

/-- A bit of a byte as a number (30_encoding.md R51). -/
theorem getLsbD_iff_div (s : Byte) (i : Nat) : s.getLsbD i = true ↔ s.toNat / 2 ^ i % 2 = 1 := by
  rw [BitVec.getLsbD, Nat.testBit_eq_decide_div_mod_eq, decide_eq_true_iff]

/-- A 2-bit slice of a byte as a number (30_encoding.md R51). -/
theorem extractLsb'_two_toNat (s : Byte) (i : Nat) : (s.extractLsb' i 2).toNat = s.toNat / 2 ^ i % 4 := by
  rw [BitVec.extractLsb'_toNat, Nat.shiftRight_eq_div_pow]

/-- The scaling of a level never overflows its channel (30_encoding.md R54). -/
theorem channel_toNat (l : Level) : (channel l).toNat = 85 * l.toNat := by
  have hl : l.toNat < 4 := l.isLt
  have hwide : (l.setWidth 8).toNat = l.toNat := by
    rw [BitVec.toNat_setWidth]
    exact Nat.mod_eq_of_lt (by omega)
  rw [channel, BitVec.toNat_mul, hwide]
  exact Nat.mod_eq_of_lt (show 85 * l.toNat < 256 by omega)

/-! #### The bound on `cursor` (10_state.md R31) -/

theorem cursorLimit_above {b : Block} (h : b.row < b.cfg.minRow) : b.cursorLimit = 0 := if_pos h

theorem cursorLimit_inside {b : Block} (h : (b.cfg.minRow : Int) ≤ b.row) (h' : b.row < b.cfg.maxRow) :
    b.cursorLimit =
      4 * (b.cfg.width * (b.row - b.cfg.minRow).toNat + min (b.col - b.cfg.firstCol) b.cfg.width) := by
  rw [Block.cursorLimit, if_neg (not_lt.2 h), if_pos h']

theorem cursorLimit_below {b : Block} (h : (b.cfg.maxRow : Int) ≤ b.row) : b.cursorLimit = b.cfg.fbSize := by
  have hmin : (b.cfg.minRow : Int) ≤ b.row := by
    rw [Cfg.maxRow] at h
    omega
  rw [Block.cursorLimit, if_neg (not_lt.2 hmin), if_neg (not_lt.2 h)]

/-- `cursorLimit` reads the configuration, `row` and `col` only. -/
theorem cursorLimit_congr {b b' : Block} (hcfg : b'.cfg = b.cfg) (hrow : b'.row = b.row) (hcol : b'.col = b.col) :
    b'.cursorLimit = b.cursorLimit := by
  rw [Block.cursorLimit, hcfg, hrow, hcol, Block.cursorLimit]

/-- Rows of the window that lie above the row `y` and that row itself fit FB. -/
theorem rowBytes_le_fbSize {c : Cfg} {y : Nat} (h : y < c.height) : 4 * (c.width * y + c.width) ≤ c.fbSize := by
  calc 4 * (c.width * y + c.width) = c.width * (y + 1) * 4 := by ring
    _ ≤ c.width * c.height * 4 := Nat.mul_le_mul_right 4 (Nat.mul_le_mul_left _ h)

/-- A new line allows at least what the line before it allowed, wherever in it the line ended. -/
theorem cursorLimit_le_nextLine {b b' : Block} (hcfg : b'.cfg = b.cfg) (hrow : b'.row = b.row + 1) :
    b.cursorLimit ≤ b'.cursorLimit := by
  have hmax : b.cfg.maxRow = b.cfg.minRow + b.cfg.height := rfl
  rcases lt_or_ge b.row b.cfg.minRow with habove | hmin
  · rw [cursorLimit_above habove]
    exact Nat.zero_le _
  rcases lt_or_ge b.row b.cfg.maxRow with hin | hbelow
  · obtain ⟨y, hy⟩ : ∃ y : Nat, b.row = b.cfg.minRow + y := ⟨(b.row - b.cfg.minRow).toNat, by omega⟩
    have hline : b.cursorLimit ≤ 4 * (b.cfg.width * y + b.cfg.width) := by
      rw [cursorLimit_inside hmin hin, show (b.row - b.cfg.minRow).toNat = y by omega]
      omega
    rcases lt_or_ge b'.row b'.cfg.maxRow with hin' | hbelow'
    · have hnext : (b'.row - b'.cfg.minRow).toNat = y + 1 := by rw [hcfg]; omega
      rw [cursorLimit_inside (by rw [hcfg]; omega) hin', hnext, hcfg, Nat.mul_add_one]
      omega
    · rw [cursorLimit_below hbelow', hcfg]
      exact hline.trans (rowBytes_le_fbSize (by omega))
  · rw [cursorLimit_below hbelow, cursorLimit_below (by rw [hcfg]; omega), hcfg]

/-! #### The invariant at the paint step -/

/-- The sync branches and the sample store keep the invariant (40_advance.md R68, R69). -/
theorem afterSync_inv {capacity : Option Nat} {b : Block} (hinv : b.Inv capacity) (o : Sample) :
    (afterSync o b).Inv capacity where
  cfg_accepted := by simpa using hinv.cfg_accepted
  row_ge := by
    have := hinv.row_ge
    rw [afterSync_row]
    split_ifs <;> omega
  col_aligned := by
    rw [afterSync_col]
    split_ifs
    · rfl
    · exact hinv.col_aligned
  cursor_aligned := by
    rw [afterSync_cursor]
    split_ifs
    · rfl
    · exact hinv.cursor_aligned
  cursor_le := by
    rw [afterSync_cursor]
    split_ifs with hv
    · exact Nat.zero_le _
    · refine hinv.cursor_le.trans ?_
      by_cases hh : hsFall (fall b.prev o.byte) = true
      · exact cursorLimit_le_nextLine (afterSync_cfg o b) (by simp [hv, hh])
      · exact (cursorLimit_congr (afterSync_cfg o b) (by simp [hv, hh]) (by simp [hh])).ge
  fb_wf := by simpa using hinv.fb_wf
  fb_cells := by simpa using hinv.fb_cells

/-- Inside the window the invariant leaves room for one more group: the groups of the line, of 4 col units each from
`c0` on, and the lines before it fill at most FB (20_memory.md R41). -/
theorem cursor_fits_of_visible {capacity : Option Nat} {b : Block} (hinv : b.Inv capacity)
    (hvis : visible b.cfg b.row b.col = true) : b.cursor + 16 ≤ b.cfg.fbSize := by
  obtain ⟨hminRow, hmaxRow, hminCol, hmaxCol⟩ := visible_iff.1 hvis
  obtain ⟨-, -, hwidth, -⟩ := cfg_wf_iff.1 hinv.cfg_accepted
  obtain ⟨hfirst, -, hfirst4⟩ := firstCol_spec b.cfg
  have hgroup : b.col - b.cfg.firstCol + 4 ≤ b.cfg.width := by
    have hcol := hinv.col_aligned
    rw [Cfg.maxCol] at hmaxCol
    rw [Cfg.width]
    omega
  have hrow : (b.row - b.cfg.minRow).toNat < b.cfg.height := by
    rw [Cfg.maxRow] at hmaxRow
    rw [Cfg.height]
    omega
  have hcursor := hinv.cursor_le
  rw [cursorLimit_inside hminRow hmaxRow] at hcursor
  have hfb := rowBytes_le_fbSize hrow
  omega

/-- The paint step of a block that meets the invariant never faults. -/
theorem paint_ok_of_inv {capacity : Option Nat} {b : Block} (hinv : b.Inv capacity) (o : Sample) :
    ∃ p, paint o b = .ok p := by
  cases hvis : visible b.cfg b.row b.col with
  | true => exact ⟨_, paint_visible hvis (cursor_fits_of_visible hinv hvis)⟩
  | false => exact ⟨_, paint_blank hvis⟩

/-- ADVANCE goes on from every state with a block that meets the invariant (40_advance.md R79). -/
theorem execAdvance_goes_on {s : State} {b : Block} (hb : s.block = some b) (hinv : s.Inv) (o : Sample) :
    ∃ t, execAdvance o s = .next t := by
  obtain ⟨p, hp⟩ := paint_ok_of_inv (afterSync_inv (hinv b hb) o) o
  exact ⟨_, execAdvance_of_paint hb hp⟩

/-! #### What of a tick depends on `prev` -/

/-- Two ticks that make the same two edges bring a block to one position, whatever samples were stored. -/
theorem afterSync_of_same_edges {o o' : Sample} {p : Byte} {b : Block}
    (hv : vsFall (fall b.prev o.byte) = vsFall (fall p o'.byte))
    (hh : hsFall (fall b.prev o.byte) = hsFall (fall p o'.byte)) :
    afterSync o' (storeSample p b) = storeSample o'.byte (afterSync o b) := by
  simp only [afterSync, verticalReset, horizontalReset, storeSample_prev, ← hv, ← hh]
  split_ifs <;> rfl

/-- The paint step neither reads nor writes the stored sample, and reads of the present one its colour. -/
theorem paint_storeSample {o o' : Sample} (hpixel : o.pixel = o'.pixel) (q : Byte) (b : Block) :
    paint o' (storeSample q b) = (paint o b).map (storeSample q) := by
  cases hvis : visible b.cfg b.row b.col with
  | false =>
    rw [paint_blank hvis, paint_blank (b := storeSample q b) hvis]
    rfl
  | true =>
    rcases le_or_gt (b.cursor + 16) b.cfg.fbSize with hfits | hbeyond
    · rw [paint_visible hvis hfits, paint_visible (b := storeSample q b) hvis hfits, hpixel]
      simp [Except.map, storeSample]
    · rw [paint_beyond hvis hbeyond, paint_beyond (b := storeSample q b) hvis hbeyond]
      rfl

/-- A FrameCommit does not depend on the stored sample but for the edge. -/
theorem frameCommit_storeSample {f f' : Byte} (hv : vsFall f = vsFall f') (p : Byte) (b : Block) :
    frameCommit f' (storeSample p b) = frameCommit f b := by
  rw [frameCommit, frameCommit, hv]
  rfl

end Sys2Proof.Machine

/-! #### The obligations -/

namespace Sys2Proof

open Sys2Proof.Machine

/-- Settles O1: each field is one bit or one 2-bit slice, by the rule for it. -/
theorem sampleFieldsAreTheBitSlices : Obligations.SampleFieldsAreTheBitSlices := by
  intro s
  have hs : s.toNat < 256 := s.isLt
  refine ⟨?_, getLsbD_iff_div s 6, extractLsb'_two_toNat s 4, extractLsb'_two_toNat s 2, ?_⟩
  · have htop : s.toNat / 128 % 2 = s.toNat / 128 := by omega
    rw [← htop]
    exact getLsbD_iff_div s 7
  · exact (extractLsb'_two_toNat s 0).trans (by rw [pow_zero, Nat.div_one])

/-- Settles O3: the sample is the byte's own, and its ADVANCE goes on because the invariant, kept up to the paint step,
leaves room for the group. -/
theorem everyByteIsAnAdvanceThatGoesOn : Obligations.EveryByteIsAnAdvanceThatGoesOn := by
  intro w hw
  refine ⟨decodeSample (BitVec.ofNat 8 w), ?_, ?_, fun rest => rfl, fun s b hb hinv => ?_⟩
  · simp [decodeTableWord, decodeBytes, decode, hw]
  · rw [byte_decodeSample, BitVec.toNat_ofNat]
    exact Nat.mod_eq_of_lt hw
  · exact execAdvance_goes_on hb hinv _

/-- Settles O5: a channel as a number, and the pixel by its definition. -/
theorem channelsAreExactlyEightyFiveTimesTheLevel : Obligations.ChannelsAreExactlyEightyFiveTimesTheLevel :=
  ⟨channel_toNat, by decide, by decide, by decide, by decide, fun _ => rfl⟩

/-- Settles O14: with equal edges the two paint steps start from blocks that differ in the stored sample only, which the
paint step and the FrameCommit do not read. -/
theorem syncLevelsActOnlyThroughTheirEdges : Obligations.SyncLevelsActOnlyThroughTheirEdges := by
  intro o o' p s b hb hr hg hbl hv hh
  rw [← vsFall_byte, ← vsFall_byte] at hv
  rw [← hsFall_byte, ← hsFall_byte] at hh
  have hpixel : o.pixel = o'.pixel := by rw [Sample.pixel, Sample.pixel, hr, hg, hbl]
  have hpaint : paint o' (afterSync o' (storeSample p b)) =
      (paint o (afterSync o b)).map (storeSample o'.byte) := by
    rw [afterSync_of_same_edges hv hh, paint_storeSample hpixel]
  change (∀ e, execAdvance o s = .fault e ↔ execAdvance o' (s.setBlock (storeSample p b)) = .fault e) ∧
    ∀ t, execAdvance o s = .next t → ∃ u c, execAdvance o' (s.setBlock (storeSample p b)) = .next u ∧
      t.block = some c ∧ u.block = some (storeSample o'.byte c) ∧ u.delivered = t.delivered
  cases hp : paint o (afterSync o b) with
  | error e =>
    rw [hp] at hpaint
    rw [execAdvance_of_error hb hp, execAdvance_of_error (setBlock_block _ s) hpaint]
    exact ⟨fun _ => Iff.rfl, fun _ => (nomatch ·)⟩
  | ok c =>
    rw [hp] at hpaint
    rw [execAdvance_of_paint hb hp, execAdvance_of_paint (setBlock_block _ s) hpaint]
    refine ⟨fun _ => ⟨(nomatch ·), (nomatch ·)⟩, fun t ht => ?_⟩
    obtain rfl := Host.Outcome.next.inj ht
    refine ⟨_, advanceCol c, rfl, rfl, rfl, ?_⟩
    simp [frameCommit_storeSample hv]

end Sys2Proof

/-! ### ADVANCE (40_advance.md): edges, position and paint

First one bit of `fall`, then where a tick that goes on leaves its block, then the paint step at the position that the
sync branches give. Each theorem that settles an obligation is put together from them. -/

namespace Sys2Proof.Machine

/-- A bit of `fall` is a bit that was 1 and is 0 (40_advance.md R63). -/
theorem getLsbD_fall_iff {prev s : Byte} {i : Nat} (hi : i < 8) :
    (fall prev s).getLsbD i = true ↔ prev.getLsbD i = true ∧ s.getLsbD i = false := by
  rw [fall, BitVec.getLsbD_and, BitVec.getLsbD_not, decide_eq_true hi, Bool.true_and, Bool.and_eq_true,
    Bool.not_eq_true']

/-- The paint step moves `cursor` by a group inside the window, and no other register. -/
theorem paint_registers {o : Sample} {b p : Block} (h : paint o b = .ok p) :
    p.row = b.row ∧ p.col = b.col ∧ p.prev = b.prev ∧
      (p.cursor = b.cursor ∨ p.cursor = b.cursor + 16 ∧ visible b.cfg b.row b.col = true) := by
  rcases paint_ok h with ⟨hvis, -, rfl⟩ | ⟨-, rfl⟩
  · exact ⟨rfl, rfl, rfl, .inr ⟨rfl, hvis⟩⟩
  · exact ⟨rfl, rfl, rfl, .inl rfl⟩

/-- The registers at the end of a tick that goes on are those of its paint step, `col` advanced (40_advance.md R61). -/
theorem execAdvance_registers {o : Sample} {s t : State} {b : Block} (hb : s.block = some b)
    (h : execAdvance o s = .next t) :
    ∃ b', t.block = some b' ∧ b'.row = (afterSync o b).row ∧ b'.col = (afterSync o b).col + 4 ∧ b'.prev = o.byte ∧
      (b'.cursor = (afterSync o b).cursor ∨
        b'.cursor = (afterSync o b).cursor + 16 ∧ visible b.cfg b'.row (b'.col - 4) = true) := by
  obtain ⟨c, p, hc, hp, rfl⟩ := execAdvance_next h
  obtain rfl := Option.some.inj (hb.symm.trans hc)
  obtain ⟨hrow, hcol, hprev, hcursor⟩ := paint_registers hp
  refine ⟨advanceCol p, rfl, hrow, congrArg (· + 4) hcol, hprev, hcursor.imp_right fun ⟨hmoved, hvis⟩ => ⟨hmoved, ?_⟩⟩
  rw [afterSync_cfg] at hvis
  rwa [advanceCol_row, advanceCol_col, Nat.add_sub_cancel, hrow, hcol]

/-- The window test at the position of the paint step, spelled from the configuration's own fields
(10_state.md R25, 00_scope.md R7). -/
theorem visible_afterSync_iff {o : Sample} {b : Block} :
    visible (afterSync o b).cfg (afterSync o b).row (afterSync o b).col = true ↔
      ((b.cfg.vbp + b.cfg.vp : Nat) : Int) ≤ (afterSync o b).row ∧
        (afterSync o b).row < ((b.cfg.vbp + b.cfg.vp + b.cfg.vv : Nat) : Int) ∧
        b.cfg.hbp + b.cfg.hp ≤ (afterSync o b).col ∧ (afterSync o b).col < b.cfg.hbp + b.cfg.hp + b.cfg.hv := by
  rw [visible_iff, afterSync_cfg]
  rfl

/-- ADVANCE inside the window, with room in FB: the group is painted at `cursor` (40_advance.md R73, R75). -/
theorem execAdvance_paints {o : Sample} {s : State} {b : Block} (hb : s.block = some b) (hwf : b.fb.wf = true)
    (hvis : visible (afterSync o b).cfg (afterSync o b).row (afterSync o b).col = true)
    (hfits : (afterSync o b).cursor + 16 ≤ b.cfg.fbSize) :
    ∃ t b', execAdvance o s = .next t ∧ t.block = some b' ∧ b'.cursor = (afterSync o b).cursor + 16 ∧
      ∀ k, b'.fb.read k =
        if (afterSync o b).cursor ≤ k ∧ k < (afterSync o b).cursor + 16 then
          o.pixel.getD ((k - (afterSync o b).cursor) % 4) 0
        else b.fb.read k := by
  have hpaint := paint_visible (o := o) hvis (by rwa [afterSync_cfg])
  refine ⟨_, _, execAdvance_of_paint hb hpaint, rfl, rfl, fun k => ?_⟩
  simp only [advanceCol_fb, afterSync_fb]
  exact read_paintGroup hwf (pixel_length o)

/-- ADVANCE outside the window leaves FB and the `cursor` of the sync branches (40_advance.md R73). -/
theorem execAdvance_blank {o : Sample} {s : State} {b : Block} (hb : s.block = some b)
    (hvis : visible (afterSync o b).cfg (afterSync o b).row (afterSync o b).col = false) :
    ∃ t b', execAdvance o s = .next t ∧ t.block = some b' ∧ b'.cursor = (afterSync o b).cursor ∧ b'.fb = b.fb :=
  ⟨_, _, execAdvance_of_paint hb (paint_blank hvis), rfl, rfl, afterSync_fb o b⟩

end Sys2Proof.Machine

/-! #### The obligations -/

namespace Sys2Proof

open Sys2Proof.Machine

/-- Settles O9: the first tick leaves its byte in `prev`, so the second tick's edges are bits of the two samples. -/
theorem theNextTickComparesWithTheStoredSample : Obligations.TheNextTickComparesWithTheStoredSample := by
  intro o o' s t u ht hu
  obtain ⟨a, -, ha, -, -⟩ := execAdvance_next ht
  obtain ⟨b, hb, -, -, hbprev, -⟩ := execAdvance_registers ha ht
  obtain ⟨c, hc, hrow, hcol, hcprev, -⟩ := execAdvance_registers hb hu
  have hv : vsFall (fall b.prev o'.byte) = (o.v && !o'.v) := by
    rw [vsFall_byte, hbprev]
    exact congrArg (· && !o'.v) (byte_bit7 o)
  have hh : hsFall (fall b.prev o'.byte) = (o.h && !o'.h) := by
    rw [hsFall_byte, hbprev]
    exact congrArg (· && !o'.h) (byte_bit6 o)
  rw [afterSync_row, hv, hh] at hrow
  rw [afterSync_col, hh] at hcol
  exact ⟨b, c, hb, hc, hbprev, hcprev, hrow, hcol⟩

/-- Settles O10: the raw bounds are the window test at the position after the sync branches, and each side of it is one
end of the paint step. -/
theorem advancePaintsExactlyInsideTheWindow : Obligations.AdvancePaintsExactlyInsideTheWindow := by
  intro o s b hb hwf f row col cursor inside
  have hwindow : visible (afterSync o b).cfg (afterSync o b).row (afterSync o b).col = true ↔ inside := by
    rw [visible_afterSync_iff, afterSync_row, afterSync_col]
  have hcursor : (afterSync o b).cursor = cursor := afterSync_cursor o b
  rw [← hcursor]
  refine ⟨fun hin hfits => execAdvance_paints hb hwf (hwindow.2 hin) hfits, fun hout => ?_⟩
  obtain ⟨t, b', ht, hb', hstays, hfb⟩ := execAdvance_blank hb (Bool.eq_false_iff.2 (mt hwindow.1 hout))
  exact ⟨t, b', ht, hb', hstays, fun k => by rw [hfb]⟩

/-- Settles O6: the two edges are the general bit at 7 and at 6. -/
theorem fallIsTheBitsThatCleared : Obligations.FallIsTheBitsThatCleared :=
  fun _ _ => ⟨rfl, fun _ => getLsbD_fall_iff, getLsbD_fall_iff (by decide), getLsbD_fall_iff (by decide)⟩

/-- Settles O8: the end of the tick is the position after the sync branches, one clause for each value of an edge. -/
theorem syncEdgesAloneMoveThePosition : Obligations.SyncEdgesAloneMoveThePosition := by
  intro o s t b hb ht
  obtain ⟨b', hb', hrow, hcol, -, hcursor⟩ := execAdvance_registers hb ht
  rw [afterSync_row] at hrow
  rw [afterSync_col] at hcol
  rw [afterSync_cursor] at hcursor
  exact ⟨b', hb',
    fun hv hh => by simpa [hv, hh] using hrow,
    fun hv hh => by simpa [hv, hh] using hrow,
    fun hv hh => by simpa [hv, hh] using hrow,
    fun hv hh => by simpa [hv, hh] using hrow,
    fun hh => by simpa [hh] using hcol,
    fun hh => by simpa [hh] using hcol,
    fun hv => by simpa [hv] using hcursor,
    fun hv => by simpa [hv] using hcursor⟩

end Sys2Proof

/-! ### THUMBNAIL (45_thumbnail.md): noninterference

THUMBNAIL delivers a result that its operands give, and does nothing else; ADVANCE reads the block and nothing else of
the state. -/

namespace Sys2Proof.Machine

/-- The result that THUMBNAIL's operands give (45_thumbnail.md R80, R81). -/
def thumbnailResult (src : Bytes) (sw sh : Nat) : Result :=
  if dimensionsAccepted src sw sh then .thumbnail (sampleThumbnail src sw) else .dimensionError

/-- While a block stands, THUMBNAIL delivers the result of its operands and changes nothing else
(45_thumbnail.md R84, R85). -/
theorem execThumbnail_of_block {src : Bytes} {sw sh : Nat} {s : State} {b : Block} (hb : s.block = some b) :
    execThumbnail src sw sh s = .next (s.deliver (thumbnailResult src sw sh)) := by
  rcases execThumbnail_cases (src := src) (sw := sw) (sh := sh) hb with ⟨haccepted, h⟩ | ⟨hrefused, h⟩
  · rw [h, thumbnailResult, if_pos haccepted]
  · rw [h, thumbnailResult, if_neg (Bool.eq_false_iff.1 hrefused)]

/-- An ADVANCE that faults does so in the paint step of a block. -/
theorem execAdvance_fault {o : Sample} {s : State} {e : Fault} (h : execAdvance o s = .fault e) :
    ∃ b, s.block = some b ∧ paint o (afterSync o b) = .error e := by
  unfold execAdvance at h
  split at h
  · exact nomatch h
  · next b hb =>
    split at h
    · next hadv =>
      obtain rfl := Host.Outcome.fault.inj h
      exact ⟨b, hb, advanceBlock_error hadv⟩
    · exact nomatch h

/-- An ADVANCE that goes on from one state goes on from every other with the same block, and leaves the same block. -/
theorem execAdvance_next_of_same_block {o : Sample} {s t u : State} (hblock : t.block = s.block)
    (h : execAdvance o s = .next u) : ∃ v, execAdvance o t = .next v ∧ v.block = u.block := by
  obtain ⟨b, p, hb, hp, rfl⟩ := execAdvance_next h
  exact ⟨_, execAdvance_of_paint (hblock.trans hb) hp, rfl⟩

/-- An ADVANCE that faults in one state faults alike in every other with the same block. -/
theorem execAdvance_fault_of_same_block {o : Sample} {s t : State} {e : Fault} (hblock : t.block = s.block)
    (h : execAdvance o s = .fault e) : execAdvance o t = .fault e := by
  obtain ⟨b, hb, hp⟩ := execAdvance_fault h
  exact execAdvance_of_error (hblock.trans hb) hp

end Sys2Proof.Machine

/-! #### The obligations -/

namespace Sys2Proof

open Sys2Proof.Machine

/-- Settles O31: THUMBNAIL only delivers a result, and an ADVANCE ends alike in two states with the same block. -/
theorem thumbnailChangesNoDecoderState : Obligations.ThumbnailChangesNoDecoderState := by
  intro src sw sh s b hb
  have hblock : (s.deliver (thumbnailResult src sw sh)).block = s.block := deliver_block _ s
  exact ⟨_, execThumbnail_of_block hb, hblock.trans hb,
    fun _ _ => execAdvance_next_of_same_block hblock, fun _ _ => execAdvance_fault_of_same_block hblock⟩

/-- Settles O32: both states deliver the one result that the operands give. -/
theorem thumbnailDependsOnItsOperandsAlone : Obligations.ThumbnailDependsOnItsOperandsAlone :=
  fun src sw sh _ _ _ _ hb hb' =>
    ⟨thumbnailResult src sw sh, _, _, execThumbnail_of_block hb, execThumbnail_of_block hb', deliver_delivered _ _,
      deliver_delivered _ _⟩

end Sys2Proof

/-! ### The tick of a block as one function (40_advance.md R61)

`tickBlock` is the block a tick leaves wherever its paint, if any, fits FB. The facts about whole ticks, lines and
frames below speak of it. -/

namespace Sys2Proof.Machine

/-- The block after a paint step that does not fault (40_advance.md R73, R75). -/
def painted (o : Sample) (b : Block) : Block :=
  { b with
    cursor := b.cursor + if visible b.cfg b.row b.col then 16 else 0
    fb := if visible b.cfg b.row b.col then paintGroup b.fb b.cursor o.pixel else b.fb }

theorem painted_of_visible {o : Sample} {b : Block} (hvis : visible b.cfg b.row b.col = true) :
    painted o b = { b with fb := paintGroup b.fb b.cursor o.pixel, cursor := b.cursor + 16 } := by
  rw [painted, if_pos hvis, if_pos hvis]

theorem painted_of_blank {o : Sample} {b : Block} (hvis : visible b.cfg b.row b.col = false) : painted o b = b := by
  rw [painted, if_neg (Bool.eq_false_iff.1 hvis), if_neg (Bool.eq_false_iff.1 hvis), Nat.add_zero]

/-- A paint step that does not fault ends in the painted block. -/
theorem paint_eq_painted {o : Sample} {b p : Block} (h : paint o b = .ok p) : p = painted o b := by
  rcases paint_ok h with ⟨hvis, -, rfl⟩ | ⟨hvis, rfl⟩
  · exact (painted_of_visible hvis).symm
  · exact (painted_of_blank hvis).symm

/-- The paint step does not fault where a group that is to be painted fits FB. -/
theorem paint_of_fits {o : Sample} {b : Block}
    (hfits : visible b.cfg b.row b.col = true → b.cursor + 16 ≤ b.cfg.fbSize) : paint o b = .ok (painted o b) := by
  cases hvis : visible b.cfg b.row b.col with
  | true => rw [painted_of_visible hvis, paint_visible hvis (hfits hvis)]
  | false => rw [painted_of_blank hvis, paint_blank hvis]

/-- The block that a tick leaves, if it does not fault (40_advance.md R61). -/
def tickBlock (o : Sample) (b : Block) : Block := advanceCol (painted o (afterSync o b))

@[simp] theorem tickBlock_cfg (o : Sample) (b : Block) : (tickBlock o b).cfg = b.cfg := afterSync_cfg o b
@[simp] theorem tickBlock_row (o : Sample) (b : Block) : (tickBlock o b).row = (afterSync o b).row := rfl
@[simp] theorem tickBlock_col (o : Sample) (b : Block) : (tickBlock o b).col = (afterSync o b).col + 4 := rfl
@[simp] theorem tickBlock_prev (o : Sample) (b : Block) : (tickBlock o b).prev = o.byte := rfl

theorem tickBlock_cursor (o : Sample) (b : Block) :
    (tickBlock o b).cursor = (afterSync o b).cursor +
      if visible b.cfg (afterSync o b).row (afterSync o b).col then 16 else 0 := by
  rw [← afterSync_cfg o b]
  rfl

theorem tickBlock_fb (o : Sample) (b : Block) :
    (tickBlock o b).fb =
      if visible b.cfg (afterSync o b).row (afterSync o b).col then
        paintGroup b.fb (afterSync o b).cursor o.pixel
      else b.fb := by
  rw [← afterSync_cfg o b, ← afterSync_fb o b]
  rfl

/-- What an ADVANCE of the block `b` makes of the state, if it does not fault. -/
def afterTick (o : Sample) (b : Block) (s : State) : State :=
  (s.setBlock (tickBlock o b)).deliver (.tick (frameCommit (fall b.prev o.byte) b))

@[simp] theorem afterTick_block (o : Sample) (b : Block) (s : State) :
    (afterTick o b s).block = some (tickBlock o b) := rfl
@[simp] theorem afterTick_fbCapacity (o : Sample) (b : Block) (s : State) :
    (afterTick o b s).fbCapacity = s.fbCapacity := rfl
@[simp] theorem afterTick_pending (o : Sample) (b : Block) (s : State) :
    (afterTick o b s).pending = s.pending := rfl
@[simp] theorem afterTick_delivered (o : Sample) (b : Block) (s : State) :
    (afterTick o b s).delivered = .tick (frameCommit (fall b.prev o.byte) b) :: s.delivered := rfl

/-- An ADVANCE goes on where a group that is to be painted fits FB. -/
theorem execAdvance_of_fits {o : Sample} {s : State} {b : Block} (hb : s.block = some b)
    (hfits : visible b.cfg (afterSync o b).row (afterSync o b).col = true →
      (afterSync o b).cursor + 16 ≤ b.cfg.fbSize) :
    execAdvance o s = .next (afterTick o b s) :=
  execAdvance_of_paint hb (paint_of_fits (by rwa [afterSync_cfg]))

/-- An ADVANCE that goes on ends in the block of its tick. -/
theorem execAdvance_next_eq {o : Sample} {s t : State} {b : Block} (hb : s.block = some b)
    (h : execAdvance o s = .next t) : t = afterTick o b s := by
  obtain ⟨c, p, hc, hp, rfl⟩ := execAdvance_next h
  obtain rfl := Option.some.inj (hb.symm.trans hc)
  rw [paint_eq_painted hp]
  rfl

/-! #### What an operation that goes on can do -/

/-- While no block stands there is no ADVANCE (70_reset_and_hazards.md R107). -/
theorem execAdvance_without_block {o : Sample} {s : State} (h : s.block = none) :
    execAdvance o s = .refused (.noBlock "ADVANCE") := by
  rw [execAdvance, h]

/-- While no block stands there is no THUMBNAIL (70_reset_and_hazards.md R107). -/
theorem execThumbnail_without_block {src : Bytes} {sw sh : Nat} {s : State} (h : s.block = none) :
    execThumbnail src sw sh s = .refused (.noBlock "THUMBNAIL") := by
  rw [execThumbnail, h]

/-- A CONSTRUCT of an accepted configuration makes a new block, whatever stood before (70_reset_and_hazards.md R103). -/
theorem execConstruct_accepted {c : Cfg} {s : State} (h : c.wf s.fbCapacity = true) :
    execConstruct c s = .next ((s.setBlock (freshBlock c)).deliver .constructed) := by
  rw [execConstruct, configAccepted_eq_wf, if_pos h]

/-- A CONSTRUCT of any other configuration delivers ConfigError and does nothing else (60_exceptions.md R89). -/
theorem execConstruct_refused {c : Cfg} {s : State} (h : c.wf s.fbCapacity = false) :
    execConstruct c s = .next (s.deliver .configError) := by
  rw [execConstruct, configAccepted_eq_wf, if_neg (Bool.eq_false_iff.1 h), raiseError]

/-- The four ways an operation goes on: a tick, a new block, a refused configuration, and a THUMBNAIL's result. -/
theorem exec_next {i : Instr} {s t : State} (h : exec i s = .next t) :
    (∃ o b, i = .advance o ∧ s.block = some b ∧ t = afterTick o b s) ∨
    (∃ c, i = .construct c ∧ c.wf s.fbCapacity = true ∧ t = (s.setBlock (freshBlock c)).deliver .constructed) ∨
    (∃ c, i = .construct c ∧ c.wf s.fbCapacity = false ∧ t = s.deliver .configError) ∨
    (∃ src sw sh, i = .thumbnail src sw sh ∧ t = s.deliver (thumbnailResult src sw sh)) := by
  cases i with
  | advance o =>
    obtain ⟨b, -, hb, -⟩ := execAdvance_next h
    exact .inl ⟨o, b, rfl, hb, execAdvance_next_eq hb h⟩
  | construct c =>
    cases hwf : c.wf s.fbCapacity with
    | true =>
      have ht := (execConstruct_accepted hwf).symm.trans h
      exact .inr (.inl ⟨c, rfl, hwf, (Host.Outcome.next.inj ht).symm⟩)
    | false =>
      have ht := (execConstruct_refused hwf).symm.trans h
      exact .inr (.inr (.inl ⟨c, rfl, hwf, (Host.Outcome.next.inj ht).symm⟩))
  | thumbnail src sw sh =>
    cases hb : s.block with
    | none => exact nomatch (execThumbnail_without_block hb).symm.trans h
    | some b =>
      have ht := (execThumbnail_of_block hb).symm.trans h
      exact .inr (.inr (.inr ⟨src, sw, sh, rfl, (Host.Outcome.next.inj ht).symm⟩))

end Sys2Proof.Machine

/-! ### The invariant (10_state.md R31)

A tick moves `cursor` and the bound on it by the same amount, the bytes it paints are no alpha bytes but 0xFF, and the
other operations leave the block or make a new one. So every operation goes on from a block that meets the invariant,
and leaves one. -/

namespace Sys2Proof.Machine

/-! #### The bound on `cursor` over one tick -/

/-- The `col` advance raises the bound by one group where the tick paints, and leaves it elsewhere. -/
theorem cursorLimit_advanceCol {b : Block} (hcol : b.col % 4 = 0) (hwidth : b.cfg.hv % 4 = 0) :
    (advanceCol b).cursorLimit = b.cursorLimit + if visible b.cfg b.row b.col then 16 else 0 := by
  obtain ⟨hfirst, hfirst', hfirst4⟩ := firstCol_spec b.cfg
  have hmaxCol : b.cfg.maxCol = b.cfg.minCol + b.cfg.hv := rfl
  have hwidth' : b.cfg.width = b.cfg.hv := rfl
  rcases lt_or_ge b.row b.cfg.minRow with habove | hmin
  · rw [cursorLimit_above habove, cursorLimit_above (b := advanceCol b) habove, if_neg]
    rw [visible_iff]
    omega
  rcases lt_or_ge b.row b.cfg.maxRow with hin | hbelow
  · rw [cursorLimit_inside hmin hin, cursorLimit_inside (b := advanceCol b) hmin hin]
    simp only [advanceCol_cfg, advanceCol_row, advanceCol_col, visible_iff, hmin, hin, true_and]
    split_ifs <;> omega
  · rw [cursorLimit_below hbelow, cursorLimit_below (b := advanceCol b) hbelow, if_neg]
    · rfl
    · rw [visible_iff]
      omega

/-- The bound moves with `cursor` over the paint step and the `col` advance of a tick. -/
theorem cursorLimit_tickBlock {capacity : Option Nat} {o : Sample} {b : Block} (hinv : b.Inv capacity) :
    (tickBlock o b).cursorLimit = (afterSync o b).cursorLimit +
      if visible b.cfg (afterSync o b).row (afterSync o b).col then 16 else 0 := by
  have hafter := afterSync_inv hinv o
  obtain ⟨-, -, hwidth, -⟩ := cfg_wf_iff.1 hafter.cfg_accepted
  rw [← afterSync_cfg o b, ← cursorLimit_advanceCol hafter.col_aligned hwidth]
  exact cursorLimit_congr rfl rfl rfl

theorem cursorLimit_le_fbSize (b : Block) : b.cursorLimit ≤ b.cfg.fbSize := by
  rcases lt_or_ge b.row b.cfg.minRow with habove | hmin
  · rw [cursorLimit_above habove]
    exact Nat.zero_le _
  rcases lt_or_ge b.row b.cfg.maxRow with hin | hbelow
  · have hmaxRow : b.cfg.maxRow = b.cfg.minRow + b.cfg.height := rfl
    have hrow : (b.row - b.cfg.minRow).toNat < b.cfg.height := by omega
    rw [cursorLimit_inside hmin hin]
    exact le_trans (by omega) (rowBytes_le_fbSize hrow)
  · exact (cursorLimit_below hbelow).le

/-! #### Blocks that meet it -/

/-- A paint at a multiple of 16 that fits FB leaves no cell outside FB and none at an alpha offset, since alpha is what
an unlisted alpha offset reads as (10_state.md R22). -/
theorem paintGroup_cells {m : Memory} {cursor size : Nat} {o : Sample} (haligned : cursor % 16 = 0)
    (hfits : cursor + 16 ≤ size) (hcells : ∀ c ∈ m, c.1 < size ∧ c.1 % 4 ≠ 3) :
    ∀ c ∈ paintGroup m cursor o.pixel, c.1 < size ∧ c.1 % 4 ≠ 3 := by
  intro c hc
  rcases mem_paintGroup (pixel_length o) hc with ⟨hge, hlt, hbyte, hlisted⟩ | hold
  · refine ⟨by omega, fun halpha => hlisted ?_⟩
    rw [show (c.1 - cursor) % 4 = 3 by omega] at hbyte
    rw [unlistedByte, if_pos halpha]
    exact (Option.some.inj hbyte).symm
  · exact hcells c hold

/-- The group that a tick of a block that meets the invariant paints fits FB (20_memory.md R41). -/
theorem tick_fits_of_inv {capacity : Option Nat} {o : Sample} {b : Block} (hinv : b.Inv capacity)
    (hvis : visible b.cfg (afterSync o b).row (afterSync o b).col = true) :
    (afterSync o b).cursor + 16 ≤ b.cfg.fbSize := by
  rw [← afterSync_cfg o b] at hvis ⊢
  exact cursor_fits_of_visible (afterSync_inv hinv o) hvis

/-- A tick keeps the invariant (10_state.md R31). -/
theorem tickBlock_inv {capacity : Option Nat} {b : Block} (hinv : b.Inv capacity) (o : Sample) :
    (tickBlock o b).Inv capacity := by
  have hafter := afterSync_inv hinv o
  have haligned := hafter.cursor_aligned
  constructor
  case cfg_accepted => simpa only [tickBlock_cfg] using hinv.cfg_accepted
  case row_ge => exact hafter.row_ge
  case col_aligned =>
    rw [tickBlock_col, Nat.add_mod_right]
    exact hafter.col_aligned
  case cursor_aligned =>
    rw [tickBlock_cursor]
    split_ifs <;> omega
  case cursor_le =>
    rw [cursorLimit_tickBlock hinv, tickBlock_cursor]
    exact Nat.add_le_add_right hafter.cursor_le _
  case fb_wf =>
    rw [tickBlock_fb]
    split_ifs
    · exact paintGroup_wf hinv.fb_wf
    · exact hinv.fb_wf
  case fb_cells =>
    rw [tickBlock_fb, tickBlock_cfg]
    split_ifs with hvis
    · exact paintGroup_cells haligned (tick_fits_of_inv hinv hvis) hinv.fb_cells
    · exact hinv.fb_cells

/-- A new block meets the invariant if CONSTRUCT accepts its configuration (70_reset_and_hazards.md R103). -/
theorem freshBlock_inv {capacity : Option Nat} {c : Cfg} (h : c.wf capacity = true) : (freshBlock c).Inv capacity where
  cfg_accepted := h
  row_ge := le_rfl
  col_aligned := rfl
  cursor_aligned := rfl
  cursor_le := Nat.zero_le _
  fb_wf := rfl
  fb_cells := by simp

/-- No alpha byte of a block that meets the invariant is listed, so each reads 0xFF (10_state.md R22). -/
theorem Block.Inv.read_alpha {capacity : Option Nat} {b : Block} (hinv : b.Inv capacity) {k : Nat} (hk : k % 4 = 3) :
    b.fb.read k = 0xFF := by
  rw [read_unlisted fun c hc hck => (hinv.fb_cells c hc).2 (hck ▸ hk), unlistedByte, if_pos hk]

theorem Block.Inv.ruleR31 {capacity : Option Nat} {b : Block} (hinv : b.Inv capacity) : b.RuleR31 :=
  ⟨hinv.row_ge, hinv.col_aligned, hinv.cursor_aligned, hinv.cursor_le.trans (cursorLimit_le_fbSize b),
    fun _ _ => hinv.read_alpha⟩

/-! #### States that meet it -/

/-- A block stands and meets the invariant: what a CONSTRUCT that succeeds establishes. -/
def State.Live (s : State) : Prop := ∃ b, s.block = some b ∧ b.Inv s.fbCapacity

theorem State.Live.inv {s : State} (h : s.Live) : s.Inv := by
  obtain ⟨b, hb, hinv⟩ := h
  intro c hc
  obtain rfl := Option.some.inj (hb.symm.trans hc)
  exact hinv

/-- The invariant speaks of the block and the capacity only. -/
theorem State.Inv.congr {s t : State} (hblock : t.block = s.block) (hcapacity : t.fbCapacity = s.fbCapacity)
    (h : s.Inv) : t.Inv := by
  intro b hb
  rw [hcapacity]
  exact h b (hblock ▸ hb)

/-- An ADVANCE of a block that meets the invariant goes on (40_advance.md R79). -/
theorem execAdvance_of_inv {capacity : Option Nat} {o : Sample} {s : State} {b : Block} (hb : s.block = some b)
    (hinv : b.Inv capacity) : execAdvance o s = .next (afterTick o b s) :=
  execAdvance_of_fits hb (tick_fits_of_inv hinv)

/-- Every operation that goes on keeps the invariant. -/
theorem exec_inv {i : Instr} {s t : State} (hinv : s.Inv) (h : exec i s = .next t) : t.Inv := by
  rcases exec_next h with ⟨o, b, -, hb, rfl⟩ | ⟨c, -, hwf, rfl⟩ | ⟨c, -, -, rfl⟩ | ⟨src, sw, sh, -, rfl⟩
  · exact State.Live.inv ⟨_, rfl, tickBlock_inv (hinv b hb) o⟩
  · exact State.Live.inv ⟨_, rfl, freshBlock_inv hwf⟩
  · exact hinv.congr rfl rfl
  · exact hinv.congr rfl rfl

/-- Every operation goes on while a block stands that meets the invariant, and leaves such a block. -/
theorem exec_of_live {s : State} (h : s.Live) (i : Instr) : ∃ t, exec i s = .next t ∧ t.Live := by
  obtain ⟨b, hb, hinv⟩ := h
  cases i with
  | advance o => exact ⟨_, execAdvance_of_inv hb hinv, _, rfl, tickBlock_inv hinv o⟩
  | construct c =>
    cases hwf : c.wf s.fbCapacity with
    | true => exact ⟨_, execConstruct_accepted hwf, _, rfl, freshBlock_inv hwf⟩
    | false => exact ⟨_, execConstruct_refused hwf, b, hb, hinv⟩
  | thumbnail src sw sh => exact ⟨_, execThumbnail_of_block hb, b, hb, hinv⟩

/-- So do any operations run one after another. -/
theorem runOps_of_live {s : State} (h : s.Live) (is : List Instr) : ∃ u, runOps is s = .next u ∧ u.Live := by
  induction is generalizing s with
  | nil => exact ⟨s, rfl, h⟩
  | cons i is ih =>
    obtain ⟨t, ht, hlive⟩ := exec_of_live h i
    rw [runOps, ht]
    exact ih hlive

/-- After a CONSTRUCT that succeeds a block stands that meets the invariant. -/
theorem constructed_live {c : Cfg} {s : State} (h : c.wf s.fbCapacity = true) :
    ((s.setBlock (freshBlock c)).deliver .constructed).Live :=
  ⟨_, rfl, freshBlock_inv h⟩

end Sys2Proof.Machine

/-! #### The obligations -/

namespace Sys2Proof

open Sys2Proof.Machine

/-- Settles O22: a step waits, runs an operation that keeps the invariant, or delivers the boundary's ConfigError. -/
theorem everyStepKeepsTheInvariant : Obligations.EveryStepKeepsTheInvariant := by
  intro s t hinv ht
  rcases step_cases s with ⟨-, hstep⟩ | ⟨r, rest, i, -, -, hstep⟩ | ⟨r, rest, -, -, hstep⟩
  · obtain rfl := Host.Outcome.next.inj (hstep.symm.trans ht)
    exact hinv
  · exact exec_inv (s := { s with pending := rest }) (hinv.congr rfl rfl) (hstep.symm.trans ht)
  · obtain rfl := Host.Outcome.next.inj (hstep.symm.trans ht)
    exact hinv.congr rfl rfl

/-- Settles O18: the operations after the CONSTRUCT leave a block that meets the invariant, and from there every tick
goes on. -/
theorem advanceIsTotalOnReachableStates : Obligations.AdvanceIsTotalOnReachableStates := by
  intro c s hwf
  refine ⟨_, execConstruct_accepted hwf, fun is => ?_⟩
  obtain ⟨u, hu, b, hb, hinv⟩ := runOps_of_live (constructed_live hwf) is
  exact ⟨u, hu, fun w => ⟨_, _, execAdvance_of_inv hb hinv, afterTick_delivered _ b u⟩⟩

/-- Settles O23: the operations after the CONSTRUCT leave a block that meets the invariant. -/
theorem reachableBlocksMeetRuleR31 : Obligations.ReachableBlocksMeetRuleR31 := by
  intro c s t is hwf ht
  obtain rfl := Host.Outcome.next.inj ((execConstruct_accepted hwf).symm.trans ht)
  obtain ⟨u, hu, b, hb, hinv⟩ := runOps_of_live (constructed_live hwf) is
  exact ⟨u, b, hu, hb, hinv.ruleR31⟩

/-- Settles O21: `cursor` is within its bound, which is within FB, and no alpha byte is listed. -/
theorem invariantGivesRuleR31 : Obligations.InvariantGivesRuleR31 := fun _ _ hinv => hinv.ruleR31

/-- Settles O20: the block at reset is a new one of an accepted configuration. -/
theorem resetMeetsTheInvariant : Obligations.ResetMeetsTheInvariant :=
  State.Live.inv ⟨freshBlock Config.resetCfg, rfl, freshBlock_inv (by decide)⟩

/-- Settles O19: the block at reset is a new one, whose FB lists nothing. -/
theorem resetIsTheStateConstructLeaves : Obligations.ResetIsTheStateConstructLeaves :=
  ⟨rfl, rfl, rfl, freshBlock Config.resetCfg, rfl, rfl, rfl, rfl, rfl, rfl, rfl, read_nil⟩

/-- Settles O37: the new block lists nothing, so each byte of its FB reads as the image of 10_state.md R21. -/
theorem constructLeavesOpaqueBlackAndTheInvariant : Obligations.ConstructLeavesOpaqueBlackAndTheInvariant := by
  intro c s t hwf ht
  obtain rfl := Host.Outcome.next.inj ((execConstruct_accepted hwf).symm.trans ht)
  exact ⟨(constructed_live hwf).inv, freshBlock c, rfl, copyFb_length _, fun k hk => copyFb_getElem? (freshBlock c) hk⟩

end Sys2Proof

/-! ### Lines and full frames (40_advance.md R77, R78)

A line's ticks see `col` = 0, 4, 8 and so on, and each moves `cursor` by the group it paints, so the groups are counted
by the ticks. Where the lines are full, `cursor` stays at its bound, which a row-major layout gives. -/

namespace Sys2Proof.Machine

/-! #### The groups of a line -/

theorem groupsInLine_succ (c : Cfg) (n : Nat) :
    groupsInLine c (n + 1) = groupsInLine c n + if c.minCol ≤ 4 * n ∧ 4 * n < c.maxCol then 1 else 0 := by
  rw [groupsInLine, List.range_succ, List.filter_append, List.length_append, groupsInLine]
  congr 1
  simp only [List.filter_cons, List.filter_nil, decide_eq_true_iff]
  split_ifs <;> rfl

/-- The ticks from `c0` on, up to the first at or beyond `maxCol`, paint the groups of a line. -/
theorem groupsInLine_eq (c : Cfg) (n : Nat) :
    groupsInLine c n = min n ((c.maxCol + 3) / 4) - (c.minCol + 3) / 4 := by
  induction n with
  | zero => rw [Nat.zero_min, Nat.zero_sub]; rfl
  | succ n ih =>
    rw [groupsInLine_succ, ih]
    split_ifs with h <;> omega

/-- The window is W/4 groups wide, whatever the residue of `minCol`. -/
theorem groupColumns_eq {c : Cfg} (h : c.hv % 4 = 0) : (c.maxCol + 3) / 4 = (c.minCol + 3) / 4 + c.width / 4 := by
  rw [Cfg.maxCol, Cfg.width]
  omega

theorem groupsInLine_le {c : Cfg} (h : c.hv % 4 = 0) (n : Nat) : groupsInLine c n ≤ c.width / 4 := by
  rw [groupsInLine_eq, groupColumns_eq h]
  omega

/-- A line paints all its groups exactly when it lasts until `maxCol` (40_advance.md R77). -/
theorem groupsInLine_eq_iff {c : Cfg} (h : c.hv % 4 = 0) (hwidth : c.hv ≠ 0) (n : Nat) :
    groupsInLine c n = c.width / 4 ↔ (c.maxCol + 3) / 4 ≤ n := by
  have hgroups : 0 < c.width / 4 := by
    rw [Cfg.width]
    omega
  rw [groupsInLine_eq, groupColumns_eq h]
  omega

/-! #### The bytes of a line -/

/-- The bytes that `n` ticks of a line paint at `row`: 16 for each group, inside the window (40_advance.md R77). -/
def lineBytes (c : Cfg) (row : Int) (n : Nat) : Nat :=
  if (c.minRow : Int) ≤ row ∧ row < c.maxRow then 16 * groupsInLine c n else 0

theorem lineBytes_zero (c : Cfg) (row : Int) : lineBytes c row 0 = 0 := by
  rw [lineBytes]
  split_ifs <;> rfl

/-- The tick at `col` = 4n adds the group it paints. -/
theorem lineBytes_succ (c : Cfg) (row : Int) (n : Nat) :
    lineBytes c row (n + 1) = lineBytes c row n + if visible c row (4 * n) then 16 else 0 := by
  rw [lineBytes, lineBytes, groupsInLine_succ]
  by_cases hrow : (c.minRow : Int) ≤ row ∧ row < c.maxRow
  · simp only [visible_iff, hrow, true_and]
    split_ifs <;> rfl
  · rw [if_neg hrow, if_neg hrow, if_neg]
    rw [visible_iff]
    tauto

/-- Without an edge the sync branches do nothing (40_advance.md R72). -/
theorem afterSync_of_noEdge {o : Sample} {b : Block} (hv : vsFall (fall b.prev o.byte) = false)
    (hh : hsFall (fall b.prev o.byte) = false) : afterSync o b = storeSample o.byte b := by
  simp only [afterSync, horizontalReset, verticalReset, hv, hh, Bool.false_eq_true, if_false]

/-- A tick without an edge finds the block where the tick before left it (40_advance.md R72). -/
theorem afterSync_position_of_noEdge {o : Sample} {b : Block} (hv : vsFall (fall b.prev o.byte) = false)
    (hh : hsFall (fall b.prev o.byte) = false) :
    (afterSync o b).row = b.row ∧ (afterSync o b).col = b.col ∧ (afterSync o b).cursor = b.cursor := by
  rw [afterSync_of_noEdge hv hh]
  exact ⟨rfl, rfl, rfl⟩

/-- A tick with a horizontal edge alone finds the block at the start of the next line (40_advance.md R69). -/
theorem afterSync_position_of_hsFall {o : Sample} {b : Block} (hv : vsFall (fall b.prev o.byte) = false)
    (hh : hsFall (fall b.prev o.byte) = true) :
    (afterSync o b).row = b.row + 1 ∧ (afterSync o b).col = 0 ∧ (afterSync o b).cursor = b.cursor := by
  simp [hv, hh]

/-- From the `n`th tick of a line on, ticks without an edge go on, advance `col` by 4 each, and move `cursor` by the
bytes they paint of the line. -/
theorem runOps_noEdges {os : List Sample} {s : State} {b : Block} {capacity : Option Nat} {n : Nat}
    (hb : s.block = some b) (hinv : b.Inv capacity) (hcol : b.col = 4 * n) (hedges : noEdges b.prev os = true) :
    ∃ t b', runOps (os.map .advance) s = .next t ∧ t.block = some b' ∧ b'.row = b.row ∧
      b'.col = 4 * (n + os.length) ∧
      b'.cursor + lineBytes b.cfg b.row n = b.cursor + lineBytes b.cfg b.row (n + os.length) := by
  induction os generalizing s b n with
  | nil => exact ⟨s, b, rfl, hb, rfl, hcol, rfl⟩
  | cons o os ih =>
    simp only [noEdges, Bool.and_eq_true, Bool.not_eq_true'] at hedges
    obtain ⟨⟨hv, hh⟩, hrest⟩ := hedges
    obtain ⟨hrow, hcolStays, hcursor⟩ := afterSync_position_of_noEdge hv hh
    have hcol' : (tickBlock o b).col = 4 * (n + 1) := by
      rw [tickBlock_col, hcolStays, hcol]
      rfl
    obtain ⟨t, b', ht, hb', hrow', hcolEnd, hcursorEnd⟩ :=
      ih (afterTick_block o b s) (tickBlock_inv hinv o) hcol' hrest
    rw [tickBlock_row, hrow] at hrow'
    rw [tickBlock_cfg, tickBlock_row, tickBlock_cursor, hrow, hcolStays, hcursor, hcol, lineBytes_succ] at hcursorEnd
    have hlength : n + (o :: os).length = n + 1 + os.length := by
      rw [List.length_cons]
      omega
    refine ⟨t, b', ?_, hb', hrow', ?_, ?_⟩
    · rw [List.map_cons, runOps, exec_advance, execAdvance_of_inv hb hinv]
      exact ht
    · rw [hlength, hcolEnd]
    · rw [hlength]
      omega

/-! #### Where the row-major layout puts the next group -/

/-- The tick inside the window lies in a group that is whole and inside its row (20_memory.md R35). -/
theorem group_in_row {c : Cfg} {row : Int} {col : Nat} (hvis : visible c row col = true) (hcol : col % 4 = 0)
    (hwidth : c.hv % 4 = 0) :
    c.firstCol ≤ col ∧ col - c.firstCol + 4 ≤ c.width ∧ (row - c.minRow).toNat < c.height := by
  obtain ⟨hminRow, hmaxRow, hminCol, hmaxCol⟩ := visible_iff.1 hvis
  obtain ⟨hfirst, hfirst', hfirst4⟩ := firstCol_spec c
  rw [Cfg.maxCol] at hmaxCol
  rw [Cfg.maxRow] at hmaxRow
  rw [Cfg.width, Cfg.height]
  omega

/-- A line that ran to `maxCol`, or that lies outside the window, ends where the next line begins. -/
theorem cursorLimit_nextLine {capacity : Option Nat} {b b' : Block} (hinv : b.Inv capacity) (hcfg : b'.cfg = b.cfg)
    (hrow : b'.row = b.row + 1) (hcol : b'.col = 0)
    (hfull : (b.cfg.minRow : Int) ≤ b.row → b.row < b.cfg.maxRow → b.cfg.maxCol ≤ b.col) :
    b'.cursorLimit = b.cursorLimit := by
  obtain ⟨-, hheight, hwidth, -⟩ := cfg_wf_iff.1 hinv.cfg_accepted
  have hcolAligned := hinv.col_aligned
  have hmaxRow : b.cfg.maxRow = b.cfg.minRow + b.cfg.vv := rfl
  rw [Block.cursorLimit, hcfg, hrow, hcol, Nat.zero_sub, Nat.zero_min, Nat.add_zero]
  rcases lt_or_ge b.row b.cfg.minRow with habove | hmin
  · have hfirstRow : (b.row + 1 - b.cfg.minRow).toNat = 0 := by omega
    rw [cursorLimit_above habove, hfirstRow, Nat.mul_zero, Nat.mul_zero]
    split_ifs <;> omega
  rcases lt_or_ge b.row b.cfg.maxRow with hin | hbelow
  · obtain ⟨y, hy⟩ : ∃ y : Nat, b.row = b.cfg.minRow + y := ⟨(b.row - b.cfg.minRow).toNat, by omega⟩
    have hline : b.cursorLimit = 4 * (b.cfg.width * (y + 1)) := by
      have hmaxCol : b.cfg.minCol + b.cfg.width ≤ b.col := hfull hmin hin
      obtain ⟨-, hfirst', hfirst4⟩ := firstCol_spec b.cfg
      have hwidth' : b.cfg.width % 4 = 0 := hwidth
      rw [cursorLimit_inside hmin hin, show (b.row - b.cfg.minRow).toNat = y by omega,
        min_eq_right (by omega), Nat.mul_add_one]
    rw [hline, if_neg (by omega), show (b.row + 1 - b.cfg.minRow).toNat = y + 1 by omega]
    split_ifs with hnext
    · rfl
    · rw [Cfg.fbSize, Cfg.height, bytesPerPixel, show y + 1 = b.cfg.vv by omega, Nat.mul_comm]
  · rw [cursorLimit_below hbelow, if_neg (by omega), if_neg (by omega)]

/-- At the start of a frame nothing is painted yet: the row is above the window, or the line has no group yet. -/
theorem cursorLimit_eq_zero {b : Block} (hrow : b.row ≤ b.cfg.minRow) (hin : b.row < b.cfg.maxRow)
    (hcol : b.row = b.cfg.minRow → b.col = 0) : b.cursorLimit = 0 := by
  rcases lt_or_ge b.row b.cfg.minRow with habove | hmin
  · exact cursorLimit_above habove
  · have hfirstRow : b.row = b.cfg.minRow := le_antisymm hrow hmin
    rw [cursorLimit_inside hmin hin, hcol hfirstRow, hfirstRow, sub_self, Nat.zero_sub, Nat.zero_min]
    rfl

/-- After the sync branches `cursor` stands at its bound: a vertical edge puts it there, and a horizontal edge or none
keeps it there if the window row that ends was full (40_advance.md R78). -/
theorem afterSync_aligned {capacity : Option Nat} {o : Sample} {b : Block} (hinv : b.Inv capacity)
    (h : vsFall (fall b.prev o.byte) = false → b.Aligned ∧
      (hsFall (fall b.prev o.byte) = true → (b.cfg.minRow : Int) ≤ b.row → b.row < b.cfg.maxRow →
        b.cfg.maxCol ≤ b.col)) :
    (afterSync o b).Aligned := by
  obtain ⟨-, hheight, hwidth, -⟩ := cfg_wf_iff.1 hinv.cfg_accepted
  have hmaxRow : b.cfg.maxRow = b.cfg.minRow + b.cfg.vv := rfl
  cases hv : vsFall (fall b.prev o.byte) with
  | true =>
    have hzero : (afterSync o b).cursorLimit = 0 := by
      apply cursorLimit_eq_zero <;> cases hh : hsFall (fall b.prev o.byte) <;> simp [hv, hh] <;> omega
    rw [Block.Aligned, hzero, afterSync_cursor, if_pos hv]
  | false =>
    obtain ⟨haligned, hfull⟩ := h hv
    cases hh : hsFall (fall b.prev o.byte) with
    | true =>
      obtain ⟨hrow, hcol, hcursor⟩ := afterSync_position_of_hsFall hv hh
      rw [Block.Aligned, hcursor, haligned]
      exact (cursorLimit_nextLine hinv (afterSync_cfg o b) hrow hcol (hfull hh)).symm
    | false =>
      obtain ⟨hrow, hcol, hcursor⟩ := afterSync_position_of_noEdge hv hh
      rw [Block.Aligned, hcursor, haligned]
      exact (cursorLimit_congr (afterSync_cfg o b) hrow hcol).symm

/-- The paint step and the `col` advance keep `cursor` at its bound. -/
theorem tickBlock_aligned {capacity : Option Nat} {o : Sample} {b : Block} (hinv : b.Inv capacity)
    (h : (afterSync o b).Aligned) : (tickBlock o b).Aligned := by
  rw [Block.Aligned, tickBlock_cursor, cursorLimit_tickBlock hinv, h]

/-- With `cursor` at its bound, the group painted at `row` and `col` is pixels x to x+3 of row y (20_memory.md R35). -/
theorem tickBlock_reads_pixel {capacity : Option Nat} {o : Sample} {b : Block} (hinv : b.Inv capacity)
    (h : (afterSync o b).Aligned) (hvis : visible b.cfg (afterSync o b).row (afterSync o b).col = true) {i j : Nat}
    (hi : i < 4) (hj : j < 4) :
    (tickBlock o b).fb.read
        (4 * (b.cfg.width * ((afterSync o b).row - b.cfg.minRow).toNat +
          ((afterSync o b).col - b.cfg.firstCol) + i) + j) = o.pixel.getD j 0 := by
  obtain ⟨hminRow, hmaxRow, -, -⟩ := visible_iff.1 hvis
  obtain ⟨-, -, hwidth, -⟩ := cfg_wf_iff.1 hinv.cfg_accepted
  obtain ⟨-, hgroup, -⟩ := group_in_row hvis (afterSync_inv hinv o).col_aligned hwidth
  have hcursor : (afterSync o b).cursor =
      4 * (b.cfg.width * ((afterSync o b).row - b.cfg.minRow).toNat + ((afterSync o b).col - b.cfg.firstCol)) := by
    rw [h, cursorLimit_inside (by rwa [afterSync_cfg]) (by rwa [afterSync_cfg]), afterSync_cfg,
      min_eq_left (by omega)]
  have hoffset : 4 * (b.cfg.width * ((afterSync o b).row - b.cfg.minRow).toNat +
      ((afterSync o b).col - b.cfg.firstCol) + i) + j = (afterSync o b).cursor + (4 * i + j) := by omega
  rw [tickBlock_fb, if_pos hvis, hoffset, read_paintGroup hinv.fb_wf (pixel_length o), if_pos (by omega),
    Nat.add_sub_cancel_left, show (4 * i + j) % 4 = j by omega]

end Sys2Proof.Machine

/-! #### The obligations -/

namespace Sys2Proof

open Sys2Proof.Machine

/-- Settles O15: the first tick starts the line at `col` 0, the others follow it, and together they paint the groups
that the ticks count. -/
theorem linePaintsEachGroupOnce : Obligations.LinePaintsEachGroupOnce := by
  intro o os s b hb hinv hv hh hedges
  obtain ⟨hwidth0, -, hwidth, -⟩ := cfg_wf_iff.1 hinv.cfg_accepted
  refine ⟨?_, groupsInLine_le hwidth _, groupsInLine_eq_iff hwidth hwidth0 _⟩
  obtain ⟨hrow, hcol, hcursor⟩ := afterSync_position_of_hsFall hv hh
  have hcol1 : (tickBlock o b).col = 4 * 1 := by rw [tickBlock_col, hcol]
  obtain ⟨t, b', ht, hb', hrow', hcolEnd, hcursorEnd⟩ :=
    runOps_noEdges (afterTick_block o b s) (tickBlock_inv hinv o) hcol1 hedges
  have hfirst : lineBytes b.cfg (b.row + 1) 1 = if visible b.cfg (b.row + 1) 0 then 16 else 0 := by
    rw [lineBytes_succ, lineBytes_zero, Nat.zero_add]
  rw [tickBlock_row, hrow] at hrow'
  rw [tickBlock_cfg, tickBlock_row, tickBlock_cursor, hrow, hcol, hcursor, hfirst, Nat.add_comm 1] at hcursorEnd
  refine ⟨t, b', ?_, hb', hrow', by rw [hcolEnd, Nat.add_comm 1], ?_⟩
  · rw [runOps, exec_advance, execAdvance_of_inv hb hinv]
    exact ht
  · change b'.cursor = b.cursor + lineBytes b.cfg (b.row + 1) (os.length + 1)
    omega

/-- Settles O16: the sync branches, the paint step and the `col` advance keep `cursor` at its bound, which inside the
window is the offset of pixel (x, y). -/
theorem fullLinesPaintARowMajorPicture : Obligations.FullLinesPaintARowMajorPicture := by
  intro o s b hb hinv hfull
  have haligned := afterSync_aligned hinv hfull
  refine ⟨_, tickBlock o b, execAdvance_of_inv hb hinv, rfl, tickBlock_aligned hinv haligned, fun hvis => ?_⟩
  obtain ⟨-, -, hwidth, -⟩ := cfg_wf_iff.1 hinv.cfg_accepted
  obtain ⟨hfirst, hx, hy⟩ := group_in_row hvis (afterSync_inv hinv o).col_aligned hwidth
  exact ⟨hfirst, hx, hy, fun i j hi hj => tickBlock_reads_pixel hinv haligned hvis hi hj⟩

end Sys2Proof

/-! ### Saturating counters (10_state.md R30)

Two blocks are alike if saturating their counters makes them equal. The window test does not see the difference, and
every step of a tick leaves alike blocks alike, so the two runs give the same results tick by tick. -/

namespace Sys2Proof.Machine

/-- The state with the counters of its block saturated. -/
def State.saturate (maxRowValue : Int) (maxColValue : Nat) (s : State) : State :=
  { s with block := s.block.map (Block.saturate maxRowValue maxColValue) }

section

variable {maxRowValue : Int} {maxColValue : Nat}

@[simp] theorem saturate_cfg (b : Block) : (b.saturate maxRowValue maxColValue).cfg = b.cfg := rfl
@[simp] theorem saturate_row (b : Block) : (b.saturate maxRowValue maxColValue).row = min b.row maxRowValue := rfl
@[simp] theorem saturate_col (b : Block) : (b.saturate maxRowValue maxColValue).col = min b.col maxColValue := rfl
@[simp] theorem saturate_cursor (b : Block) : (b.saturate maxRowValue maxColValue).cursor = b.cursor := rfl
@[simp] theorem saturate_prev (b : Block) : (b.saturate maxRowValue maxColValue).prev = b.prev := rfl
@[simp] theorem saturate_fb (b : Block) : (b.saturate maxRowValue maxColValue).fb = b.fb := rfl

/-- Alike blocks differ at most in counters that lie beyond the bounds. -/
theorem saturate_eq_iff {b c : Block} :
    c.saturate maxRowValue maxColValue = b.saturate maxRowValue maxColValue ↔
      c.cfg = b.cfg ∧ min c.row maxRowValue = min b.row maxRowValue ∧
        min c.col maxColValue = min b.col maxColValue ∧ c.cursor = b.cursor ∧ c.prev = b.prev ∧ c.fb = b.fb := by
  simp only [Block.saturate, Block.mk.injEq]

theorem block_saturate_saturate (b : Block) :
    (b.saturate maxRowValue maxColValue).saturate maxRowValue maxColValue = b.saturate maxRowValue maxColValue := by
  simp [Block.saturate]

theorem state_saturate_saturate (s : State) :
    (s.saturate maxRowValue maxColValue).saturate maxRowValue maxColValue = s.saturate maxRowValue maxColValue := by
  cases hb : s.block <;> simp [State.saturate, hb, block_saturate_saturate]

/-- The window test is the same at a saturated position: both bounds lie at or beyond the window. -/
theorem visible_saturate {b : Block} (hrow : (b.cfg.maxRow : Int) ≤ maxRowValue) (hcol : b.cfg.maxCol ≤ maxColValue) :
    visible b.cfg (b.saturate maxRowValue maxColValue).row (b.saturate maxRowValue maxColValue).col =
      visible b.cfg b.row b.col := by
  rw [Bool.eq_iff_iff, visible_iff, visible_iff]
  simp only [saturate_row, saturate_col]
  omega

/-- The sync branches start from a saturated position alike: they reset the counters, or add one line. -/
theorem afterSync_saturate (o : Sample) (b : Block) :
    (afterSync o (b.saturate maxRowValue maxColValue)).saturate maxRowValue maxColValue =
      (afterSync o b).saturate maxRowValue maxColValue := by
  rw [saturate_eq_iff]
  refine ⟨by simp, ?_, ?_, ?_, rfl, by simp⟩
  · rw [afterSync_row, afterSync_row, saturate_prev, saturate_row]
    split_ifs <;> omega
  · rw [afterSync_col, afterSync_col, saturate_prev, saturate_col]
    split_ifs <;> omega
  · rw [afterSync_cursor, afterSync_cursor, saturate_prev, saturate_cursor]

/-- The paint step reads the position through the window test alone. -/
theorem paint_saturate {o : Sample} {b : Block} (hrow : (b.cfg.maxRow : Int) ≤ maxRowValue)
    (hcol : b.cfg.maxCol ≤ maxColValue) :
    paint o (b.saturate maxRowValue maxColValue) = (paint o b).map (Block.saturate maxRowValue maxColValue) := by
  have hsame := visible_saturate hrow hcol
  cases hvis : visible b.cfg b.row b.col with
  | false =>
    rw [paint_blank hvis, paint_blank (b := b.saturate maxRowValue maxColValue) (hsame.trans hvis)]
    rfl
  | true =>
    rcases le_or_gt (b.cursor + 16) b.cfg.fbSize with hfits | hbeyond
    · rw [paint_visible hvis hfits, paint_visible (b := b.saturate maxRowValue maxColValue) (hsame.trans hvis) hfits]
      simp [Except.map, Block.saturate]
    · rw [paint_beyond hvis hbeyond, paint_beyond (b := b.saturate maxRowValue maxColValue) (hsame.trans hvis) hbeyond]
      rfl

theorem advanceCol_saturate (b : Block) :
    (advanceCol (b.saturate maxRowValue maxColValue)).saturate maxRowValue maxColValue =
      (advanceCol b).saturate maxRowValue maxColValue := by
  rw [saturate_eq_iff]
  refine ⟨rfl, by simp, ?_, rfl, rfl, rfl⟩
  rw [advanceCol_col, advanceCol_col, saturate_col]
  omega

/-! #### One tick of alike blocks -/

section

variable {b c : Block} (halike : c.saturate maxRowValue maxColValue = b.saturate maxRowValue maxColValue)
include halike

theorem afterSync_alike (o : Sample) :
    (afterSync o c).saturate maxRowValue maxColValue = (afterSync o b).saturate maxRowValue maxColValue := by
  rw [← afterSync_saturate, halike, afterSync_saturate]

theorem advanceCol_alike :
    (advanceCol c).saturate maxRowValue maxColValue = (advanceCol b).saturate maxRowValue maxColValue := by
  rw [← advanceCol_saturate, halike, advanceCol_saturate]

theorem paint_alike (hrow : (b.cfg.maxRow : Int) ≤ maxRowValue) (hcol : b.cfg.maxCol ≤ maxColValue) (o : Sample) :
    (paint o c).map (Block.saturate maxRowValue maxColValue) =
      (paint o b).map (Block.saturate maxRowValue maxColValue) := by
  obtain ⟨hcfg, -⟩ := saturate_eq_iff.1 halike
  rw [← paint_saturate (by rwa [hcfg]) (by rwa [hcfg]), halike, paint_saturate hrow hcol]

/-- The FrameCommit reads `prev`, the configuration and FB, which saturating leaves. -/
theorem frameCommit_alike (o : Sample) :
    frameCommit (fall c.prev o.byte) c = frameCommit (fall b.prev o.byte) b := by
  obtain ⟨hcfg, -, -, -, hprev, hfb⟩ := saturate_eq_iff.1 halike
  rw [frameCommit, frameCommit, copyFb, copyFb, hcfg, hprev, hfb]

end

/-! #### Runs from alike blocks -/

/-- States that are equal once saturated have blocks that are. -/
theorem exists_block_alike {s s' : State} {b : Block}
    (hs : s'.saturate maxRowValue maxColValue = s.saturate maxRowValue maxColValue) (hb : s.block = some b) :
    ∃ c, s'.block = some c ∧ c.saturate maxRowValue maxColValue = b.saturate maxRowValue maxColValue := by
  obtain ⟨-, hblock, -, -⟩ := State.mk.inj hs
  rw [hb] at hblock
  exact Option.map_eq_some_iff.1 hblock

/-- A tick from either of two states that are equal once saturated goes on to such states, or faults alike. -/
theorem execAdvance_alike {s s' : State} {b : Block}
    (hs : s'.saturate maxRowValue maxColValue = s.saturate maxRowValue maxColValue) (hb : s.block = some b)
    (hrow : (b.cfg.maxRow : Int) ≤ maxRowValue) (hcol : b.cfg.maxCol ≤ maxColValue) (o : Sample) :
    (∀ t, execAdvance o s = .next t → ∃ u, execAdvance o s' = .next u ∧
      u.saturate maxRowValue maxColValue = t.saturate maxRowValue maxColValue) ∧
    ∀ e, execAdvance o s = .fault e → execAdvance o s' = .fault e := by
  obtain ⟨c, hc, halike⟩ := exists_block_alike hs hb
  have hpaint := paint_alike (afterSync_alike halike o) (by rwa [afterSync_cfg]) (by rwa [afterSync_cfg]) o
  cases hp : paint o (afterSync o b) with
  | error e =>
    rw [execAdvance_of_error hb hp]
    refine ⟨fun t ht => (nomatch ht), fun e' he => ?_⟩
    obtain rfl := Host.Outcome.fault.inj he
    cases hq : paint o (afterSync o c) with
    | error e' =>
      rw [hp, hq] at hpaint
      rw [execAdvance_of_error hc hq, Except.error.inj hpaint]
    | ok q =>
      rw [hp, hq] at hpaint
      exact nomatch hpaint
  | ok p =>
    rw [execAdvance_of_paint hb hp]
    refine ⟨fun t ht => ?_, fun e he => nomatch he⟩
    obtain rfl := Host.Outcome.next.inj ht
    cases hq : paint o (afterSync o c) with
    | error e' =>
      rw [hp, hq] at hpaint
      exact nomatch hpaint
    | ok q =>
      rw [hp, hq] at hpaint
      refine ⟨_, execAdvance_of_paint hc hq, ?_⟩
      change ((s'.saturate maxRowValue maxColValue).setBlock
          ((advanceCol q).saturate maxRowValue maxColValue)).deliver _ =
        ((s.saturate maxRowValue maxColValue).setBlock ((advanceCol p).saturate maxRowValue maxColValue)).deliver _
      rw [hs, advanceCol_alike (Except.ok.inj hpaint), frameCommit_alike halike]

/-- The saturating run from a state that is equal once saturated gives the same results, tick by tick. -/
theorem runSaturating_alike {os : List Sample} {s s' : State} {b : Block}
    (hs : s'.saturate maxRowValue maxColValue = s.saturate maxRowValue maxColValue) (hb : s.block = some b)
    (hrow : (b.cfg.maxRow : Int) ≤ maxRowValue) (hcol : b.cfg.maxCol ≤ maxColValue) :
    (∀ t, runOps (os.map .advance) s = .next t →
      ∃ u, runSaturating maxRowValue maxColValue os s' = .next u ∧ u.delivered = t.delivered) ∧
    ∀ e, runOps (os.map .advance) s = .fault e → runSaturating maxRowValue maxColValue os s' = .fault e := by
  induction os generalizing s s' b with
  | nil =>
    refine ⟨fun t ht => ?_, fun e he => nomatch he⟩
    obtain rfl := Host.Outcome.next.inj ht
    obtain ⟨-, -, -, hdelivered⟩ := State.mk.inj hs
    exact ⟨s', rfl, hdelivered⟩
  | cons o os ih =>
    obtain ⟨hnext, hfault⟩ := execAdvance_alike hs hb hrow hcol o
    rw [List.map_cons, runOps, runSaturating, exec_advance, exec_advance]
    cases ht : execAdvance o s with
    | next t =>
      obtain ⟨u, hu, halike⟩ := hnext t ht
      rw [hu]
      obtain rfl := execAdvance_next_eq hb ht
      exact ih ((state_saturate_saturate u).trans halike) (afterTick_block o b s) (by rwa [tickBlock_cfg])
        (by rwa [tickBlock_cfg])
    | fault e =>
      rw [hfault e ht]
      exact ⟨fun t h => (nomatch h), fun _ h => congrArg _ (Host.Outcome.fault.inj h)⟩
    | refused r => exact ⟨fun t h => (nomatch h), fun e h => (nomatch h)⟩

end

end Sys2Proof.Machine

/-! #### The obligations -/

namespace Sys2Proof

open Sys2Proof.Machine

/-- Settles O17: both runs start from one state. -/
theorem saturatingCountersGiveTheSameResults : Obligations.SaturatingCountersGiveTheSameResults :=
  fun _ _ _ _ _ hb hrow hcol => runSaturating_alike rfl hb hrow hcol

end Sys2Proof

/-! ### Decoding, the step and runs (30_encoding.md, 20_memory.md R43)

A step's request decodes back to the operation it issues, and what an operation does has nothing to do with the queue,
so steps run the queued operations one after another. -/

namespace Sys2Proof.Machine

/-- Encoding an operation that has a word, and decoding it again, gives the operation back. -/
theorem decode_of_encode {i : Instr} {w : Byte} (h : encode i = some w) : decode w = i := by
  cases i with
  | advance o =>
    obtain rfl := Option.some.inj h
    rw [decode, decodeSample_byte]
  | construct c => exact nomatch h
  | thumbnail src sw sh => exact nomatch h

theorem encode_decode (w : Byte) : encode (decode w) = some w := congrArg some (byte_decodeSample w)

/-- The request that issues an operation decodes to it. -/
theorem decodeRequest_encodeRequest (i : Instr) : decodeRequest (encodeRequest i) = .ok i := by
  cases i with
  | advance o => exact Laws.RequestRoundTrip.advance o
  | construct c => exact Laws.RequestRoundTrip.construct c
  | thumbnail src sw sh => exact Laws.RequestRoundTrip.thumbnail src sw sh

/-- With nothing pending, a step waits (60_exceptions.md R102). -/
theorem step_idle {s : State} (hpending : s.pending = []) : step s = .next s := by
  rw [step, hpending]

/-- A step takes out the oldest request and runs the operation it decodes to. -/
theorem step_of_decode {s : State} {r : Request} {rest : List Request} {i : Instr} (hpending : s.pending = r :: rest)
    (hdecode : decodeRequest r = .ok i) : step s = exec i { s with pending := rest } := by
  simp only [step, hpending, hdecode]

/-- A step takes out the oldest request and delivers ConfigError where the boundary refuses it. -/
theorem step_of_negativeField {s : State} {r : Request} {rest : List Request} (hpending : s.pending = r :: rest)
    (hdecode : decodeRequest r = .error .negativeField) :
    step s = .next (({ s with pending := rest } : State).deliver .configError) := by
  simp only [step, hpending, hdecode]
  rfl

/-- Each operation that goes on delivers one result (30_encoding.md R56). -/
theorem exec_delivers {i : Instr} {s t : State} (h : exec i s = .next t) : ∃ r, t.delivered = r :: s.delivered := by
  rcases exec_next h with ⟨o, b, -, -, rfl⟩ | ⟨c, -, -, rfl⟩ | ⟨c, -, -, rfl⟩ | ⟨src, sw, sh, -, rfl⟩
  all_goals exact ⟨_, rfl⟩

/-- A step that goes on delivers one result, or waits. -/
theorem step_delivers {s t : State} (h : step s = .next t) :
    t.delivered = s.delivered ∨ ∃ r, t.delivered = r :: s.delivered := by
  rcases step_cases s with ⟨-, hstep⟩ | ⟨r, rest, i, -, -, hstep⟩ | ⟨r, rest, -, -, hstep⟩
  · obtain rfl := Host.Outcome.next.inj (hstep.symm.trans h)
    exact .inl rfl
  · exact .inr (exec_delivers (s := { s with pending := rest }) (hstep.symm.trans h))
  · obtain rfl := Host.Outcome.next.inj (hstep.symm.trans h)
    exact .inr ⟨_, rfl⟩

section

variable (M : Host.Core) {n : Nat} {s t : M.State}

/-- A run whose first step goes on is the rest of the run. -/
theorem run_succ_of_next (h : M.step s = .next t) : M.run (n + 1) s = M.run n t := by
  rw [Host.Core.run, h]

/-- A run stops at its first fault. -/
theorem run_succ_of_fault {e : M.Fault} (h : M.step s = .fault e) : M.run (n + 1) s = .fault e := by
  rw [Host.Core.run, h]

/-- A run stops at its first refusal. -/
theorem run_succ_of_refused {r : M.Refusal} (h : M.step s = .refused r) : M.run (n + 1) s = .refused r := by
  rw [Host.Core.run, h]

end

/-- An outcome with another queue. -/
def requeue (q : List Request) : Host.Outcome State Fault Refusal → Host.Outcome State Fault Refusal
  | .next t => .next { t with pending := q }
  | .fault e => .fault e
  | .refused r => .refused r

/-- No operation reads or writes the queue. -/
theorem exec_requeue (i : Instr) (q : List Request) (s : State) :
    exec i { s with pending := q } = requeue q (exec i s) := by
  cases i with
  | advance o =>
    rw [exec_advance, exec_advance, execAdvance, execAdvance]
    cases s.block with
    | none => rfl
    | some b => cases h : advanceBlock o b <;> simp only [h] <;> rfl
  | construct c =>
    rw [exec_construct, exec_construct, execConstruct, execConstruct]
    cases configAccepted s.fbCapacity c <;> rfl
  | thumbnail src sw sh =>
    rcases Option.eq_none_or_eq_some s.block with hb | ⟨b, hb⟩
    · exact (execThumbnail_without_block (s := { s with pending := q }) hb).trans
        (congrArg (requeue q) (execThumbnail_without_block hb).symm)
    · exact (execThumbnail_of_block (s := { s with pending := q }) hb).trans
        (congrArg (requeue q) (execThumbnail_of_block hb).symm)

end Sys2Proof.Machine

/-! #### The obligations -/

namespace Sys2Proof

open Sys2Proof.Machine

/-- Settles O4: a sample and its byte give each other back, and a CONSTRUCT or a THUMBNAIL is no ADVANCE. -/
theorem decodeOfEncodeIsTheOperation : Obligations.DecodeOfEncodeIsTheOperation := by
  refine ⟨fun i w => decode_of_encode, encode_decode, fun i => ⟨fun hnone w hw => ?_, fun hno => ?_⟩⟩
  · rw [← hw, encode_decode] at hnone
    exact nomatch hnone
  · cases hi : encode i with
    | none => rfl
    | some w => exact absurd (decode_of_encode hi) (hno w)

/-- Settles O27: a run puts the results of its later steps in front of that of its first. -/
theorem deliveredResultsNeverChange : Obligations.DeliveredResultsNeverChange := by
  intro n s t ht
  induction n generalizing s with
  | zero =>
    obtain rfl := Host.Outcome.next.inj ht
    exact ⟨[], le_rfl, rfl⟩
  | succ n ih =>
    cases hstep : step s with
    | next u =>
      rw [run_succ_of_next core hstep] at ht
      obtain ⟨added, hlength, hadded⟩ := ih u ht
      rcases step_delivers hstep with hsame | ⟨r, hr⟩
      · exact ⟨added, hlength.trans n.le_succ, hadded.trans (congrArg _ hsame)⟩
      · refine ⟨added ++ [r], ?_, ?_⟩
        · rw [List.length_append]
          exact Nat.succ_le_succ hlength
        · rw [hadded, hr, List.append_assoc]
          rfl
    | fault e => exact nomatch (run_succ_of_fault core hstep).symm.trans ht
    | refused r => exact nomatch (run_succ_of_refused core hstep).symm.trans ht

/-- Settles O28: the first step runs the first operation, which leaves the rest of the queue as it finds it. -/
theorem runsExecuteTheQueueInOrder : Obligations.RunsExecuteTheQueueInOrder := by
  intro is rest s hpending
  induction is generalizing s with
  | nil =>
    obtain rfl : s.pending = rest := hpending
    rfl
  | cons i is ih =>
    have hstep := step_of_decode hpending (decodeRequest_encodeRequest i)
    rw [exec_requeue] at hstep
    rw [List.length_cons, runOps, exec_requeue]
    cases hi : exec i s with
    | next t =>
      rw [hi] at hstep
      rw [run_succ_of_next core hstep]
      exact ih _ rfl
    | fault e =>
      rw [hi] at hstep
      exact run_succ_of_fault core hstep
    | refused r =>
      rw [hi] at hstep
      exact run_succ_of_refused core hstep

/-- Settles O2: each word by evaluation. -/
theorem sampleWordsDecodeToTheirFields : Obligations.SampleWordsDecodeToTheirFields :=
  ⟨by decide, by decide, by decide, by decide, by decide, by decide⟩

/-- Settles O36: the boundary refuses the request. -/
theorem negativeConfigFieldGivesConfigError : Obligations.NegativeConfigFieldGivesConfigError := by
  intro hbp hp hv vbp vp vv rest s hpending hnegative
  exact step_of_negativeField hpending (if_pos hnegative)

/-- Settles O40: the byte or the request decodes to the operation, and a byte of the host's is the word it decodes. -/
theorem stepRunsTheDecodedOperation : Obligations.StepRunsTheDecodedOperation := by
  refine ⟨fun s i w rest hw hpending => ?_, fun s i rest hpending => ?_, fun s => step_idle, fun s w hw => ?_⟩
  · exact step_of_decode hpending (congrArg Except.ok (decode_of_encode hw))
  · exact step_of_decode hpending (decodeRequest_encodeRequest i)
  · exact ⟨decode (BitVec.ofNat 8 w), by simp [decodeTableWord, decodeBytes, hw],
      step_of_decode (withFetchWord_pending s 8 w) rfl⟩

end Sys2Proof

/-! ### ADVANCE and CONSTRUCT whole, and what operations leave unchanged

One tick's FrameCommit and `cursor`, the frame of the four ways an operation goes on, and the configurations that
CONSTRUCT refuses. -/

namespace Sys2Proof.Machine

/-- A vertical edge delivers FB as it is before the tick (40_advance.md R67). -/
theorem frameCommit_of_vsFall {f : Byte} {b : Block} (h : vsFall f = true) : frameCommit f b = some (copyFb b) :=
  if_pos h

theorem frameCommit_of_not_vsFall {f : Byte} {b : Block} (h : vsFall f = false) : frameCommit f b = none :=
  if_neg (Bool.eq_false_iff.1 h)

/-- The store that `storesAt` names is the paint of the tick (20_memory.md R39). -/
theorem storesAt_advance (o : Sample) (b : Block) :
    storesAt (.advance o) b =
      if visible b.cfg (afterSync o b).row (afterSync o b).col then some (afterSync o b).cursor else none := by
  rw [storesAt, afterSync_cfg]

/-- A tick leaves every byte of FB that it does not store (10_state.md R23). -/
theorem tickBlock_read_of_not_stored {o : Sample} {b : Block} {k : Nat}
    (h : ∀ a, storesAt (.advance o) b = some a → ¬ (a ≤ k ∧ k < a + 16)) :
    (tickBlock o b).fb.read k = b.fb.read k := by
  rw [storesAt_advance] at h
  rw [tickBlock_fb]
  split_ifs at h ⊢ with hvis
  · exact read_paintGroup_outside (pixel_length o) (h _ rfl)
  · rfl

/-- After a vertical edge `cursor` stands at 0, or at 16 where the tick painted (40_advance.md R68, R75). -/
theorem tickBlock_cursor_of_vsFall {o : Sample} {b : Block} (h : vsFall (fall b.prev o.byte) = true) :
    (tickBlock o b).cursor = 0 ∨ (tickBlock o b).cursor = 16 ∧ storesAt (.advance o) b = some 0 := by
  rw [tickBlock_cursor, storesAt_advance, afterSync_cursor, if_pos h]
  split_ifs
  · exact .inr ⟨rfl, rfl⟩
  · exact .inl rfl

/-- CONSTRUCT refuses a configuration for exactly these causes (60_exceptions.md R88). -/
theorem cfg_wf_eq_false_iff {capacity : Option Nat} {c : Cfg} :
    c.wf capacity = false ↔
      c.hv = 0 ∨ c.vv = 0 ∨ c.hv % 4 ≠ 0 ∨ ∃ n, capacity = some n ∧ n < c.hv * c.vv * 4 := by
  rw [← Bool.not_eq_true, cfg_wf_iff]
  simp only [not_and_or, not_forall, not_not, not_le, exists_prop, ne_eq]

/-- With both edges the window test is made at the origin, which is in the window if the window begins there. -/
theorem visible_origin_iff {c : Cfg} (hwidth : c.hv ≠ 0) (hheight : c.vv ≠ 0) :
    visible c 0 0 = true ↔ c.minRow = 0 ∧ c.minCol = 0 := by
  rw [visible_iff, Cfg.maxRow, Cfg.maxCol]
  omega

/-- A block that CONSTRUCT has just made has stored no bit that can fall. -/
theorem fall_freshBlock (c : Cfg) (s : Byte) : fall (freshBlock c).prev s = 0#8 := BitVec.zero_and

/-- A block that CONSTRUCT has just made stands above every window. -/
theorem visible_freshBlock (c : Cfg) : visible c (freshBlock c).row (freshBlock c).col = false := by
  rw [Bool.eq_false_iff, Ne, visible_iff, freshBlock_row]
  omega

end Sys2Proof.Machine

/-! #### The obligations -/

namespace Sys2Proof

open Sys2Proof.Machine

/-- Settles O12: the commit is a copy of the block's FB before the tick, on a vertical edge. -/
theorem frameCommitIsFbAtTheStartOfTheTick : Obligations.FrameCommitIsFbAtTheStartOfTheTick := by
  intro o s t b hb ht
  obtain rfl := execAdvance_next_eq hb ht
  have hedge : vsFall (fall b.prev o.byte) = true ↔ b.prev.getLsbD 7 = true ∧ o.v = false := by
    rw [vsFall_byte, Bool.and_eq_true, Bool.not_eq_true']
  rw [← hedge, Bool.not_eq_true, afterTick_delivered]
  refine ⟨fun hv => ⟨copyFb b, ?_, copyFb_length b, fun k => copyFb_getElem? b⟩, fun hv => ?_⟩
  · rw [frameCommit_of_vsFall hv]
  · rw [frameCommit_of_not_vsFall hv]

/-- Settles O24: a tick keeps the bytes it does not store, and the other operations keep the block. -/
theorem fbKeepsEveryByteThatIsNotPainted : Obligations.FbKeepsEveryByteThatIsNotPainted := by
  intro i s t b hb ht
  rcases exec_next ht with ⟨o, c, rfl, hc, rfl⟩ | ⟨c, rfl, hwf, -⟩ | ⟨c, rfl, -, rfl⟩ | ⟨src, sw, sh, rfl, rfl⟩
  · obtain rfl := Option.some.inj (hb.symm.trans hc)
    refine .inr ⟨tickBlock o b, rfl, fun a k ha hk => ?_, fun hnone k => ?_, fun o' ho hv => ?_⟩
    · refine tickBlock_read_of_not_stored fun a' ha' => ?_
      obtain rfl := Option.some.inj (ha.symm.trans ha')
      exact hk
    · exact tickBlock_read_of_not_stored fun a ha => nomatch hnone.symm.trans ha
    · obtain rfl := Instr.advance.inj ho
      exact tickBlock_cursor_of_vsFall hv
  · exact .inl ⟨c, rfl, hwf⟩
  · exact .inr ⟨b, hb, fun _ _ _ _ => rfl, fun _ _ => rfl, fun _ ho => nomatch ho⟩
  · exact .inr ⟨b, hb, fun _ _ _ _ => rfl, fun _ _ => rfl, fun _ ho => nomatch ho⟩

/-- Settles O25: each of the four ways an operation goes on, by its own update of the state. -/
theorem operationsLeaveTheRestAlone : Obligations.OperationsLeaveTheRestAlone := by
  intro i s t ht
  rcases exec_next ht with ⟨o, b, rfl, hb, rfl⟩ | ⟨c, rfl, hwf, rfl⟩ | ⟨c, rfl, -, rfl⟩ | ⟨src, sw, sh, rfl, rfl⟩
  · refine ⟨rfl, rfl, ⟨_, rfl⟩, ?_⟩
    simp only [afterTick_block, hb, Option.map_some, tickBlock_cfg]
  · exact ⟨rfl, rfl, ⟨_, rfl⟩, fun hrefused => nomatch hrefused.symm.trans hwf⟩
  · exact ⟨rfl, rfl, ⟨_, rfl⟩, fun _ => rfl⟩
  · exact ⟨rfl, rfl, ⟨_, rfl⟩, rfl⟩

/-- Settles O7: the fields of the tick's block are those of the pseudocode. -/
theorem advanceCompletesAsThePseudocodeSays : Obligations.AdvanceCompletesAsThePseudocodeSays := by
  intro o s b hb f row col cursor paints hfits
  have hrow : (afterSync o b).row = row := afterSync_row o b
  have hcol : (afterSync o b).col = col := afterSync_col o b
  have hcursor : (afterSync o b).cursor = cursor := afterSync_cursor o b
  have hblock : tickBlock o b =
      { cfg := b.cfg
        row := row
        col := col + 4
        cursor := if paints then cursor + 16 else cursor
        prev := o.byte
        fb := if paints then paintGroup b.fb cursor o.pixel else b.fb } := by
    rw [Block.mk.injEq, tickBlock_cfg, tickBlock_cursor, tickBlock_fb, tickBlock_row, tickBlock_col, hrow, hcol,
      hcursor]
    exact ⟨rfl, rfl, rfl, by split_ifs <;> rfl, rfl, rfl⟩
  rw [exec_advance, execAdvance_of_fits hb (by rwa [hrow, hcol, hcursor]), ← hblock]
  rfl

/-- Settles O11: the paint step faults, and ADVANCE with it. -/
theorem paintBeyondFbFaultsWithItsCursor : Obligations.PaintBeyondFbFaultsWithItsCursor := by
  intro o s b hb hvis hbeyond
  rw [← afterSync_cfg o b] at hvis hbeyond
  exact execAdvance_of_error hb (paint_beyond hvis hbeyond)

/-- Settles O13: the edges put the position at the origin, and the tick paints there if the window begins there. -/
theorem bothEdgesInOneTickStartAFrame : Obligations.BothEdgesInOneTickStartAFrame := by
  intro o s b hb hinv h7 h6 hov hoh
  obtain ⟨hwidth, hheight, -, -⟩ := cfg_wf_iff.1 hinv.cfg_accepted
  have hv : vsFall (fall b.prev o.byte) = true := by rw [vsFall_byte, h7, hov]; rfl
  have hh : hsFall (fall b.prev o.byte) = true := by rw [hsFall_byte, h6, hoh]; rfl
  have hrow : (afterSync o b).row = 0 := by rw [afterSync_row, if_pos hv, if_pos hh]; rfl
  have hcol : (afterSync o b).col = 0 := by rw [afterSync_col, if_pos hh]
  refine ⟨_, tickBlock o b, copyFb b, execAdvance_of_inv hb hinv, rfl, hrow, congrArg (· + 4) hcol, ?_, ?_⟩
  · rw [afterTick_delivered, frameCommit_of_vsFall hv]
  · rw [tickBlock_cursor, hrow, hcol, afterSync_cursor, if_pos hv, Nat.zero_add]
    simp only [visible_origin_iff hwidth hheight]

/-- Settles O38: no bit of a new block's `prev` can fall, and its row is above every window. -/
theorem firstTickAfterConstructFindsNoEdge : Obligations.FirstTickAfterConstructFindsNoEdge := by
  intro o c s hb
  have hv : vsFall (fall (freshBlock c).prev o.byte) = false := by rw [fall_freshBlock]; rfl
  have hh : hsFall (fall (freshBlock c).prev o.byte) = false := by rw [fall_freshBlock]; rfl
  have hpaint : paint o (afterSync o (freshBlock c)) = .ok (storeSample o.byte (freshBlock c)) := by
    rw [afterSync_of_noEdge hv hh]
    exact paint_blank (visible_freshBlock c)
  rw [exec_advance, execAdvance_of_paint hb hpaint, frameCommit_of_not_vsFall hv]
  rfl

/-- Settles O39: both meanings ask for the block first. -/
theorem noAdvanceOrThumbnailWithoutABlock : Obligations.NoAdvanceOrThumbnailWithoutABlock :=
  fun _ _ _ _ _ hb => ⟨execAdvance_without_block hb, execThumbnail_without_block hb⟩

/-- Settles O34: the conditions are those of an accepted configuration. -/
theorem constructMakesANewBlock : Obligations.ConstructMakesANewBlock :=
  fun _ _ hwidth hheight hgroups hcapacity =>
    execConstruct_accepted (cfg_wf_iff.2 ⟨hwidth, hheight, hgroups, hcapacity⟩)

/-- Settles O35: each cause makes the configuration one that is not accepted. -/
theorem constructRefusesABadConfig : Obligations.ConstructRefusesABadConfig :=
  fun _ _ hcause => execConstruct_refused (cfg_wf_eq_false_iff.2 hcause)

end Sys2Proof

/-! ### Canonical memories (10_state.md R21)

In canonical form the first listed offset is the first that reads otherwise than the CONSTRUCT image, so the bytes of a
memory determine its list cell by cell. -/

namespace Sys2Proof.Machine

/-- Below its first cell a canonical memory reads as the CONSTRUCT image. -/
theorem read_below_head {a k : Nat} {v : Byte} {m : Memory} (h : Memory.wf ((a, v) :: m) = true) (hk : k < a) :
    Memory.read ((a, v) :: m) k = unlistedByte k := by
  obtain ⟨-, hrising, -⟩ := Memory.wf_cons.1 h
  refine read_unlisted fun c hc => ?_
  rcases List.mem_cons.1 hc with rfl | hc
  · exact Nat.ne_of_gt hk
  · exact Nat.ne_of_gt (hk.trans (hrising c hc))

theorem read_head (a : Nat) (v : Byte) (m : Memory) : Memory.read ((a, v) :: m) a = v := if_pos rfl

/-- A canonical memory's first cell reads otherwise than the CONSTRUCT image. -/
theorem read_head_ne {a : Nat} {v : Byte} {m : Memory} (h : Memory.wf ((a, v) :: m) = true) :
    Memory.read ((a, v) :: m) a ≠ unlistedByte a := by
  rw [read_head]
  exact (Memory.wf_cons.1 h).1

/-- The rest of a canonical memory reads as the whole but at the first cell, where it reads as the CONSTRUCT image. -/
theorem read_tail {a : Nat} {v : Byte} {m : Memory} (h : Memory.wf ((a, v) :: m) = true) (k : Nat) :
    m.read k = if k = a then unlistedByte a else Memory.read ((a, v) :: m) k := by
  obtain ⟨-, hrising, -⟩ := Memory.wf_cons.1 h
  split_ifs with hk
  · subst hk
    exact read_unlisted fun c hc => Nat.ne_of_gt (hrising c hc)
  · exact (if_neg (Ne.symm hk)).symm

/-- Canonical memories that read alike begin at the same offset. -/
theorem head_le_of_read_eq {a b : Nat} {v w : Byte} {m n : Memory} (hm : Memory.wf ((a, v) :: m) = true)
    (hn : Memory.wf ((b, w) :: n) = true) (h : ∀ k, Memory.read ((a, v) :: m) k = Memory.read ((b, w) :: n) k) :
    b ≤ a := by
  by_contra hlt
  exact read_head_ne hm ((h a).trans (read_below_head hn (not_le.1 hlt)))

end Sys2Proof.Machine

/-! #### The obligations -/

namespace Sys2Proof

open Sys2Proof.Machine

/-- Settles O26, by induction on the first list: the first cells are equal, and the rests read alike. -/
theorem canonicalMemoriesThatReadAlikeAreEqual : Obligations.CanonicalMemoriesThatReadAlikeAreEqual := by
  intro m
  induction m with
  | nil =>
    rintro (_ | ⟨⟨b, w⟩, n⟩) hm hn h
    · rfl
    · exact absurd (h b).symm (read_head_ne hn)
  | cons c m ih =>
    obtain ⟨a, v⟩ := c
    rintro (_ | ⟨⟨b, w⟩, n⟩) hm hn h
    · exact absurd (h a) (read_head_ne hm)
    · obtain rfl : a = b := le_antisymm (head_le_of_read_eq hn hm fun k => (h k).symm) (head_le_of_read_eq hm hn h)
      obtain rfl : v = w := (read_head a v m).symm.trans ((h a).trans (read_head a w n))
      obtain ⟨-, -, hm'⟩ := Memory.wf_cons.1 hm
      obtain ⟨-, -, hn'⟩ := Memory.wf_cons.1 hn
      rw [ih n hm' hn' fun k => by rw [read_tail hm, read_tail hn, h k]]

end Sys2Proof

/-! ### THUMBNAIL (45_thumbnail.md): the image

The image is 120 rows of 160 pixels of four bytes, so a byte of it is found by its row, its pixel and its place in the
pixel, and each pixel lies inside an accepted source. -/

namespace Sys2Proof.Machine

/-! #### Lists made of blocks of one length -/

section

variable {α : Type} {f : Nat → List α} {L : Nat}

theorem length_flatMap_range {n : Nat} (hf : ∀ i, i < n → (f i).length = L) :
    ((List.range n).flatMap f).length = n * L := by
  rw [List.length_flatMap, List.map_congr_left fun i hi => hf i (List.mem_range.1 hi), List.map_const',
    List.sum_replicate_nat, List.length_range]

/-- Element `j` of block `i`. -/
theorem getElem?_flatMap_range {n i j : Nat} (hf : ∀ i, i < n → (f i).length = L) (hi : i < n) (hj : j < L) :
    ((List.range n).flatMap f)[L * i + j]? = (f i)[j]? := by
  induction n with
  | zero => exact absurd hi i.not_lt_zero
  | succ n ih =>
    have hlength := length_flatMap_range (f := f) fun i hi => hf i (Nat.lt_succ_of_lt hi)
    rw [List.range_succ, List.flatMap_append, List.flatMap_singleton]
    rcases Nat.lt_succ_iff_lt_or_eq.1 hi with hlt | rfl
    · rw [List.getElem?_append_left, ih (fun i hi => hf i (Nat.lt_succ_of_lt hi)) hlt]
      rw [hlength]
      calc L * i + j < L * (i + 1) := by rw [Nat.mul_add_one]; omega
        _ ≤ L * n := Nat.mul_le_mul_left L hlt
        _ = n * L := Nat.mul_comm L n
    · rw [List.getElem?_append_right (by rw [hlength, Nat.mul_comm]; omega), hlength, Nat.mul_comm,
        Nat.add_sub_cancel_left]

end

/-! #### The pixels of an image -/

/-- Byte `k` of `MemRead(SRC, off, n)` (00_scope.md R13). -/
theorem readSrc_getElem? {src : Bytes} {off n k : Nat} (hk : k < n) : (readSrc src off n)[k]? = src[off + k]? := by
  rw [readSrc, List.getElem?_take_of_lt hk, List.getElem?_drop]

/-- The source pixel of every destination pixel lies inside a source of an accepted size (45_thumbnail.md R82). -/
theorem sourcePixel_in_source {src : Bytes} {sw sh x y : Nat} (hsw : 640 ≤ sw) (hsh : 480 ≤ sh)
    (hlength : src.length = sw * sh * 4) (hx : x < 160) (hy : y < 120) :
    4 * (sw * (4 * y) + 4 * x) + 4 ≤ src.length := by
  calc 4 * (sw * (4 * y) + 4 * x) + 4 ≤ 4 * (sw * (4 * y) + sw) := by omega
    _ = sw * (4 * y + 1) * 4 := by ring
    _ ≤ sw * sh * 4 := Nat.mul_le_mul_right 4 (Nat.mul_le_mul_left sw (by omega))
    _ = src.length := hlength.symm

section

variable {src : Bytes} {sw sh : Nat} (hsw : 640 ≤ sw) (hsh : 480 ≤ sh) (hlength : src.length = sw * sh * 4)
include hsw hsh hlength

/-- A pixel of an accepted source is four bytes. -/
theorem readSrc_pixel_length {x y : Nat} (hx : x < 160) (hy : y < 120) :
    (readSrc src (pixelOffset sw (4 * x) (4 * y)) 4).length = 4 := by
  have hinside := sourcePixel_in_source hsw hsh hlength hx hy
  rw [readSrc, List.length_take, List.length_drop, pixelOffset, bytesPerPixel]
  omega

/-- A row of the image is 160 pixels of four bytes. -/
theorem thumbnailRow_length {y : Nat} (hy : y < 120) :
    ((List.range 160).flatMap fun x => readSrc src (pixelOffset sw (4 * x) (4 * y)) 4).length = 640 :=
  length_flatMap_range fun _ hx => readSrc_pixel_length hsw hsh hlength hx hy

theorem sampleThumbnail_length : (sampleThumbnail src sw).length = 76800 :=
  length_flatMap_range fun _ hy => thumbnailRow_length hsw hsh hlength hy

/-- Pixel (x, y) of the image is byte for byte source pixel (4x, 4y) (45_thumbnail.md R82). -/
theorem sampleThumbnail_getElem? {x y k : Nat} (hx : x < 160) (hy : y < 120) (hk : k < 4) :
    (sampleThumbnail src sw)[4 * (160 * y + x) + k]? = src[4 * (sw * (4 * y) + 4 * x) + k]? := by
  have hoffset : 4 * (160 * y + x) + k = 640 * y + (4 * x + k) := by omega
  have hrow := getElem?_flatMap_range (fun _ hy => thumbnailRow_length hsw hsh hlength hy) hy
    (show 4 * x + k < 640 by omega)
  have hpixel := getElem?_flatMap_range (fun _ hx => readSrc_pixel_length hsw hsh hlength hx hy) hx hk
  rw [hoffset]
  exact hrow.trans (hpixel.trans (readSrc_getElem? hk))

/-- While a block stands, an accepted source gives its image and nothing else changes (45_thumbnail.md R80, R84). -/
theorem execThumbnail_accepted {s : State} {b : Block} (hb : s.block = some b) :
    execThumbnail src sw sh s = .next (s.deliver (.thumbnail (sampleThumbnail src sw))) := by
  rw [execThumbnail_of_block hb, thumbnailResult, if_pos (dimensionsAccepted_iff.2 ⟨hsw, hsh, hlength⟩)]

end

/-- While a block stands, every other source gives DimensionError and nothing else changes (60_exceptions.md R91). -/
theorem execThumbnail_refused {src : Bytes} {sw sh : Nat} {s : State} {b : Block} (hb : s.block = some b)
    (h : sw < 640 ∨ sh < 480 ∨ src.length ≠ sw * sh * 4) :
    execThumbnail src sw sh s = .next (s.deliver .dimensionError) := by
  have hrefused : ¬ dimensionsAccepted src sw sh = true := by
    rw [dimensionsAccepted_iff]
    omega
  rw [execThumbnail_of_block hb, thumbnailResult, if_neg hrefused]

/-- The CONSTRUCT image is opaque black (10_state.md R21). -/
theorem copyFb_freshBlock_getElem? {c : Cfg} {k : Nat} (hk : k < c.fbSize) :
    (copyFb (freshBlock c))[k]? = some (if k % 4 = 3 then 0xFF else 0x00) :=
  copyFb_getElem? (freshBlock c) hk

/-- A thumbnail of the CONSTRUCT image is opaque black (45_thumbnail.md R86). -/
theorem sampleThumbnail_freshBlock {c : Cfg} (hwidth : 640 ≤ c.width) (hheight : 480 ≤ c.height) {j : Nat}
    (hj : j < 76800) :
    (sampleThumbnail (copyFb (freshBlock c)) c.width)[j]? = some (if j % 4 = 3 then 0xFF else 0x00) := by
  have hlength : (copyFb (freshBlock c)).length = c.width * c.height * 4 := copyFb_length (freshBlock c)
  have hx : j / 4 % 160 < 160 := by omega
  have hy : j / 640 < 120 := by omega
  have hinside := sourcePixel_in_source hwidth hheight hlength hx hy
  have hoffset : j = 4 * (160 * (j / 640) + j / 4 % 160) + j % 4 := by omega
  conv_lhs => rw [hoffset]
  rw [sampleThumbnail_getElem? hwidth hheight hlength hx hy (by omega), copyFb_freshBlock_getElem?]
  · rw [show (4 * (c.width * (4 * (j / 640)) + 4 * (j / 4 % 160)) + j % 4) % 4 = j % 4 by omega]
  · exact lt_of_lt_of_le (by omega) (hinside.trans (copyFb_length (freshBlock c)).le)

end Sys2Proof.Machine

/-! #### The obligations -/

namespace Sys2Proof

open Sys2Proof.Machine

/-- Settles O29: the image of the accepted source, pixel by pixel. -/
theorem thumbnailCopiesEveryFourthPixel : Obligations.ThumbnailCopiesEveryFourthPixel := by
  intro src sw sh s b hb hsw hsh hlength
  refine ⟨_, execThumbnail_accepted hsw hsh hlength hb, sampleThumbnail_length hsw hsh hlength,
    fun x y k hx hy hk => ⟨?_, sampleThumbnail_getElem? hsw hsh hlength hx hy hk⟩⟩
  have hinside := sourcePixel_in_source hsw hsh hlength hx hy
  omega

/-- Settles O30: a source with one of the three faults is not accepted. -/
theorem thumbnailOfABadSourceGivesDimensionError : Obligations.ThumbnailOfABadSourceGivesDimensionError :=
  fun _ _ _ _ _ hb hbad => execThumbnail_refused hb hbad

/-- Settles O33: the host's source has the block's dimensions, and before any commit it is the CONSTRUCT image. -/
theorem ownThumbnailBeforeAnyCommitIsBlack : Obligations.OwnThumbnailBeforeAnyCommitIsBlack := by
  intro s b hb
  refine ⟨fun hsmall => execThumbnail_refused hb (by omega), fun hwidth hheight hnone => ?_⟩
  have hlength : (copyFb (freshBlock b.cfg)).length = b.cfg.width * b.cfg.height * 4 := copyFb_length (freshBlock b.cfg)
  have hown : ownThumbnail b s = .thumbnail (copyFb (freshBlock b.cfg)) b.cfg.width b.cfg.height := by
    rw [ownThumbnail, hnone]
    rfl
  rw [hown]
  exact ⟨_, execThumbnail_accepted hwidth hheight hlength hb, sampleThumbnail_length hwidth hheight hlength,
    fun j hj => sampleThumbnail_freshBlock hwidth hheight hj⟩

end Sys2Proof
